-- ==== Sys2Proof/Word.lean ====
section
/-! DEFINITION. The widths of PACCORE's values (R11, R16, R64) and the two-dimensional array its images are made of (R36 to R40). -/

namespace Sys2Proof

/-- A byte: memory data, a port number, a latch (R11). -/
abbrev Byte := BitVec 8

/-- A 16-bit bus address or word (R11, R49). -/
abbrev Word := BitVec 16

/-- A pixel index, 0 to 3 (R19). -/
abbrev PixelIndex := BitVec 2

/-- A 32-bit pixel word (R77). -/
abbrev Pixel := BitVec 32

/-- A 40-bit transaction word (R64). -/
abbrev TxnWord := BitVec 40

/-- An image of `h` rows of `w` values each: `img[row][column]`, row 0 at the top (R36, R37, R40). -/
abbrev Grid (α : Type) (w h : Nat) := Vector (Vector α w) h

end Sys2Proof
end

