-- ==== Sys2Proof/Syntax.lean ====
section
/-! DEFINITION. The transactions of PACCORE as syntax: one constructor per row of the opcode table (R3, R65), and the pseudo-transactions of R71. -/

namespace Sys2Proof

/-- A logical key identifier, the K field of KEYDN and KEYUP (R67). -/
inductive Key where
  | up
  | down
  | left
  | right
  | coin1
  | coin2
  | start1
  | start2
  | service
  | test
  | credit
  /-- K = 11 to 15, ignored (R69 (c)); another `k` is ill-formed. -/
  | unrecognised (k : BitVec 4)
deriving DecidableEq, Repr

/-- A transaction (R65). IN and OUT are `inp` and `out`. -/
inductive Instr where
  | rd8 (addr : Word)
  | wr8 (addr : Word) (val : Byte)
  | rd16 (addr : Word)
  | wr16 (addr : Word) (val : Word)
  | inp (port : Byte)
  | out (port val : Byte)
  | keydn (key : Key)
  | keyup (key : Key)
  | compose
  | irqchk
  | decode
deriving DecidableEq, Repr

/-- A pseudo-transaction (R71): it has no meaning beyond its expansion. -/
inductive Pseudo where
  | frame
  | press (key : Key)
  | setvec (v : Byte)
  | irqon
  | irqoff
  /-- Sprite slot `i`, code, palette byte, X and Y position. -/
  | sprite (i : Fin 8) (code pal x y : Byte)
  /-- Tile-plane offset `o`, tile number, palette byte. -/
  | tile (o : Word) (t p : Byte)
deriving DecidableEq, Repr

end Sys2Proof
end

