-- ==== Sys2Proof/WellFormed.lean ====
section
/-! DEFINITION. Which transactions stand for a word. Every operand but one has exactly its field's width (R64, R66); the one check left is
that an unrecognised key carries a K the spec does not recognise (R67). -/

namespace Sys2Proof

/-- An unrecognised key's number is 11 to 15 (R67). -/
def Key.wf : Key → Bool
  | .up => true
  | .down => true
  | .left => true
  | .right => true
  | .coin1 => true
  | .coin2 => true
  | .start1 => true
  | .start2 => true
  | .service => true
  | .test => true
  | .credit => true
  | .unrecognised k => decide (11 ≤ k.toNat)

/-- A well-formed transaction: one that some word encodes. -/
def Instr.wf : Instr → Bool
  | .rd8 _ => true
  | .wr8 _ _ => true
  | .rd16 _ => true
  | .wr16 _ _ => true
  | .inp _ => true
  | .out _ _ => true
  | .keydn key => key.wf
  | .keyup key => key.wf
  | .compose => true
  | .irqchk => true
  | .decode => true

end Sys2Proof
end

