-- ==== Sys2Proof/Decode.lean ====
section
/-! DEFINITION. The transaction word (30_encoding.md): decoding, total on every 40-bit word and rejecting by name (R64 to R69), the encoder, the
opcode table as masks, the written form (R70) and the expansion of the pseudo-transactions (R71). -/

namespace Sys2Proof

/-- OP, bits 39:36 (R64). -/
def opField (w : TxnWord) : BitVec 4 := w.extractLsb' 36 4

/-- K, bits 35:32 (R64). -/
def kField (w : TxnWord) : BitVec 4 := w.extractLsb' 32 4

/-- A, bits 31:16 (R64). -/
def aField (w : TxnWord) : Word := w.extractLsb' 16 16

/-- D, bits 15:0 (R64). -/
def dField (w : TxnWord) : Word := w.extractLsb' 0 16

/-- The word with the given fields, `O K AAAA DDDD` (R64). -/
def txnWord (op k : BitVec 4) (a d : Word) : TxnWord := op ++ k ++ a ++ d

/-- The low byte of a 16-bit field: the port in A (R66), byte data in D (R66), the low byte of a word (R49). -/
def lowByte (v : Word) : Byte := v.extractLsb' 0 8

/-- The high byte of a word (R49). -/
def highByte (v : Word) : Byte := v.extractLsb' 8 8

/-- A defined OP (R65). -/
inductive Op where
  | rd8
  | wr8
  | rd16
  | wr16
  | inp
  | out
  | keydn
  | keyup
  | compose
  | irqchk
  | decode
deriving DecidableEq, Repr

/-- The OP value of a defined OP (R65). -/
def Op.code : Op → BitVec 4
  | .rd8 => 0x1
  | .wr8 => 0x2
  | .rd16 => 0x3
  | .wr16 => 0x4
  | .inp => 0x5
  | .out => 0x6
  | .keydn => 0x7
  | .keyup => 0x8
  | .compose => 0x9
  | .irqchk => 0xA
  | .decode => 0xB

/-- The defined OP with an OP value; 0x0 and 0xC to 0xF are reserved (R65, R69 (a)). -/
def Op.ofCode (c : BitVec 4) : Option Op :=
  match c.toNat with
  | 0x1 => some .rd8
  | 0x2 => some .wr8
  | 0x3 => some .rd16
  | 0x4 => some .wr16
  | 0x5 => some .inp
  | 0x6 => some .out
  | 0x7 => some .keydn
  | 0x8 => some .keyup
  | 0x9 => some .compose
  | 0xA => some .irqchk
  | 0xB => some .decode
  | _ => none

/-- The must-be-zero bits of a defined OP: the "must be zero" column of R65. -/
def Op.mustBeZero : Op → TxnWord
  | .rd8 => 0x0F0000FFFF
  | .wr8 => 0x0F0000FF00
  | .rd16 => 0x0F0000FFFF
  | .wr16 => 0x0F00000000
  | .inp => 0x0FFF00FFFF
  | .out => 0x0FFF00FF00
  | .keydn => 0x00FFFFFFFF
  | .keyup => 0x00FFFFFFFF
  | .compose => 0x0FFFFFFFFF
  | .irqchk => 0x0FFFFFFFFF
  | .decode => 0x0FFFFFFFFF

/-- The bits of a word that say which row of the opcode table it belongs to: the row's mask. -/
def Op.mask (op : Op) : TxnWord := 0xF000000000 ||| op.mustBeZero

/-- What those bits are for the row: the row's match. -/
def Op.matchBits (op : Op) : TxnWord := txnWord op.code 0 0 0

/-- Every defined OP, in the table's order. -/
def Op.all : List Op := [.rd8, .wr8, .rd16, .wr16, .inp, .out, .keydn, .keyup, .compose, .irqchk, .decode]

/-- The key with a K value (R67). -/
def Key.ofCode (k : BitVec 4) : Key :=
  match k.toNat with
  | 0 => .up
  | 1 => .down
  | 2 => .left
  | 3 => .right
  | 4 => .coin1
  | 5 => .coin2
  | 6 => .start1
  | 7 => .start2
  | 8 => .service
  | 9 => .test
  | 10 => .credit
  | _ => .unrecognised k

/-- The K value of a key (R67). -/
def Key.code : Key → BitVec 4
  | .up => 0
  | .down => 1
  | .left => 2
  | .right => 3
  | .coin1 => 4
  | .coin2 => 5
  | .start1 => 6
  | .start2 => 7
  | .service => 8
  | .test => 9
  | .credit => 10
  | .unrecognised k => k

/-- Why a word stands for no transaction (R69 (a), (b)); it records the word (R144). -/
inductive DecodeError where
  | reservedOp (w : TxnWord)
  | nonzeroReservedField (w : TxnWord)
deriving DecidableEq, Repr

/-- The operands of a word of a defined OP (R66). -/
def Op.assemble (op : Op) (w : TxnWord) : Instr :=
  match op with
  | .rd8 => .rd8 (aField w)
  | .wr8 => .wr8 (aField w) (lowByte (dField w))
  | .rd16 => .rd16 (aField w)
  | .wr16 => .wr16 (aField w) (dField w)
  | .inp => .inp (lowByte (aField w))
  | .out => .out (lowByte (aField w)) (lowByte (dField w))
  | .keydn => .keydn (Key.ofCode (kField w))
  | .keyup => .keyup (Key.ofCode (kField w))
  | .compose => .compose
  | .irqchk => .irqchk
  | .decode => .decode

/-- Decoding a word: OP first, then the must-be-zero fields (R68, R69; the order of the two checks is R149's). -/
def decodeWord (w : TxnWord) : Except DecodeError Instr :=
  match Op.ofCode (opField w) with
  | none => .error (.reservedOp w)
  | some op => if w &&& op.mustBeZero = 0 then .ok (op.assemble w) else .error (.nonzeroReservedField w)

/-- The OP of a transaction (R65). -/
def Instr.op : Instr → Op
  | .rd8 _ => .rd8
  | .wr8 _ _ => .wr8
  | .rd16 _ => .rd16
  | .wr16 _ _ => .wr16
  | .inp _ => .inp
  | .out _ _ => .out
  | .keydn _ => .keydn
  | .keyup _ => .keyup
  | .compose => .compose
  | .irqchk => .irqchk
  | .decode => .decode

/-- A byte in the low half of a 16-bit field (R66). -/
def zextByte (v : Byte) : Word := v.setWidth 16

/-- The word of a transaction (R65, R66, R70). -/
def encode (i : Instr) : TxnWord :=
  match i with
  | .rd8 addr => txnWord 0x1 0 addr 0
  | .wr8 addr val => txnWord 0x2 0 addr (zextByte val)
  | .rd16 addr => txnWord 0x3 0 addr 0
  | .wr16 addr val => txnWord 0x4 0 addr val
  | .inp port => txnWord 0x5 0 (zextByte port) 0
  | .out port val => txnWord 0x6 0 (zextByte port) (zextByte val)
  | .keydn key => txnWord 0x7 key.code 0 0
  | .keyup key => txnWord 0x8 key.code 0 0
  | .compose => txnWord 0x9 0 0 0
  | .irqchk => txnWord 0xA 0 0 0
  | .decode => txnWord 0xB 0 0 0

/-- The transaction the decoder reads from the low `nbits` bits of `w`, the bits above them zero; none where it refuses. A transaction is one
40-bit word (R68), so a longer word is none. -/
def decodeTableWord (nbits w : Nat) : Option Instr :=
  if w % 2 ^ nbits < 2 ^ 40 then
    match decodeWord (BitVec.ofNat 40 (w % 2 ^ nbits)) with
    | .ok i => some i
    | .error _ => none
  else none

/-- The mnemonic of an OP (R65, R70). -/
def Op.mnemonic : Op → String
  | .rd8 => "RD8"
  | .wr8 => "WR8"
  | .rd16 => "RD16"
  | .wr16 => "WR16"
  | .inp => "IN"
  | .out => "OUT"
  | .keydn => "KEYDN"
  | .keyup => "KEYUP"
  | .compose => "COMPOSE"
  | .irqchk => "IRQCHK"
  | .decode => "DECODE"

/-- A key as it is written: a name of R67, or `#n` (R70). -/
def Key.written : Key → String
  | .up => "up"
  | .down => "down"
  | .left => "left"
  | .right => "right"
  | .coin1 => "coin1"
  | .coin2 => "coin2"
  | .start1 => "start1"
  | .start2 => "start2"
  | .service => "service"
  | .test => "test"
  | .credit => "credit"
  | .unrecognised k => "#" ++ toString k.toNat

/-- The operands of a transaction as they are written (R70), numbers in decimal. -/
def Instr.operands : Instr → List String
  | .rd8 addr => [toString addr.toNat]
  | .wr8 addr val => [toString addr.toNat, toString val.toNat]
  | .rd16 addr => [toString addr.toNat]
  | .wr16 addr val => [toString addr.toNat, toString val.toNat]
  | .inp port => [toString port.toNat]
  | .out port val => [toString port.toNat, toString val.toNat]
  | .keydn key => [key.written]
  | .keyup key => [key.written]
  | .compose => []
  | .irqchk => []
  | .decode => []

/-- A transaction as it is written: the mnemonic, then the operands separated by commas (R70). -/
def Instr.written (i : Instr) : String :=
  if i.operands = [] then i.op.mnemonic else i.op.mnemonic ++ " " ++ String.intercalate ", " i.operands

/-- The expansion of a pseudo-transaction, in order (R71). -/
def Pseudo.expand : Pseudo → List Instr
  | .frame => [.compose, .irqchk]
  | .press key => [.keydn key, .keyup key]
  | .setvec v => [.out 0 v]
  | .irqon => [.wr8 0x5000 0x01]
  | .irqoff => [.wr8 0x5000 0x00]
  | .sprite i code pal x y =>
    let k := BitVec.ofNat 16 (2 * i.val)
    [.wr8 (0x4FF0 + k) code, .wr8 (0x4FF1 + k) pal, .wr8 (0x5060 + k) x, .wr8 (0x5061 + k) y]
  | .tile o t p => [.wr8 (0x4000 + o) t, .wr8 (0x4400 + o) p]

end Sys2Proof
end

