-- ==== Sys2Proof/Config.lean ====
section
/-! DEFINITION. The parameters the spec leaves open (R13): what the model takes as arguments. No rule fixes a value for them, so every claim is
made for all of them; `Params.default` names the values that `State.reset` uses. -/

namespace Sys2Proof

/-- The eight ROM images of a load, in the order DECODE reads them (R84). -/
inductive RomName where
  | prog0
  | prog1
  | prog2
  | prog3
  | colrom
  | palrom
  | tilerom
  | sprrom
deriving DecidableEq, Repr

/-- The parameter ROM_IMAGES (R13, R84): each image is missing (`none`) or a byte sequence of any length. -/
structure RomImages where
  prog0 : Option (List Byte)
  prog1 : Option (List Byte)
  prog2 : Option (List Byte)
  prog3 : Option (List Byte)
  colrom : Option (List Byte)
  palrom : Option (List Byte)
  tilerom : Option (List Byte)
  sprrom : Option (List Byte)
deriving DecidableEq, Repr

/-- The parameter TRANSPARENCY_KEY (R13, R135): which colour makes a sprite pixel transparent. -/
inductive TransparencyKey where
  | ownEntry0
  | palette0Entry0
deriving DecidableEq, Repr

/-- Byte storage by offset: the listed cells in rising order of offset, none holding `Memory.unlisted`. -/
abbrev Memory := List Host.Cell

/-- What an offset that is not listed reads as (DESIGN CHOICE, log 10: a representation, and the power-on byte of log 4 and log 6). -/
def Memory.unlisted : Byte := 0x00

/-- The named parameters of R13. -/
structure Params where
  /-- INIT_RAM, by offset 0 to 0xFFF. -/
  initRam : Memory
  /-- INIT_SPRPOS. -/
  initSprpos : Vector Byte 16
  /-- DIP. -/
  dip : Byte
  /-- ROM_IMAGES. -/
  romImages : RomImages
  /-- CYCLES_PER_FRAME, the CPU core's; read by no rule (R13, R161). Its default is the model's (log 22). -/
  cyclesPerFrame : Nat
  /-- TRANSPARENCY_KEY. -/
  transparencyKey : TransparencyKey
deriving DecidableEq, Repr

/-- No image supplied. -/
def RomImages.missing : RomImages where
  prog0 := none
  prog1 := none
  prog2 := none
  prog3 := none
  colrom := none
  palrom := none
  tilerom := none
  sprrom := none

/-- The values `State.reset` is built with: INIT_RAM, INIT_SPRPOS and DIP as 95_test_vectors.md takes them where it says nothing else, and no ROM
image (DESIGN CHOICE, log 4 and log 5); CYCLES_PER_FRAME 0, for which no source gives a value (DESIGN CHOICE, log 22). The default of
TRANSPARENCY_KEY is the spec's (R13). -/
def Params.default : Params where
  initRam := []
  initSprpos := Vector.replicate 16 0x00
  dip := 0x00
  romImages := RomImages.missing
  cyclesPerFrame := 0
  transparencyKey := .ownEntry0

end Sys2Proof
end

