-- ==== Sys2Proof/Machine/State.lean ====
section
/-! DEFINITION. The state of PACCORE (10_state.md R20), as plain data, with the parameters its rules read and the block's interface; the reasons a
step can stop; and the state at construction (R42, R159). -/

namespace Sys2Proof.Machine

/-- The sequencing state (R22). -/
inductive Phase where
  | unloaded
  | inactive
  | run
  | composed
deriving DecidableEq, Repr

/-- What a transaction hands back (R17, R144). The model's own (log 3). -/
inductive Response where
  | nothing
  /-- The result of RD8 or IN. -/
  | byte (v : Byte)
  /-- The result of RD16. -/
  | word (v : Word)
  /-- One interrupt request carrying a vector byte, to the CPU core (R140). -/
  | irqRequest (v : Byte)
  /-- The failing images of a load (R85, R145). -/
  | loadFailures (images : List RomName)
deriving DecidableEq, Repr

/-- A fault stops the machine. PACCORE raises none (R143), so there is no constructor (log 15). -/
inductive Fault
deriving DecidableEq, Repr

/-- A transaction the spec gives no meaning (R146). All are safe: the run stops, and nothing can be proved of what would follow. Each but the
first records the word (R144). -/
inductive Refusal where
  /-- No meaning given yet; raised by no arm of this model. Safe. -/
  | notModelled (mnemonic : String)
  /-- Code 16: OP 0x0 or 0xC to 0xF; raised by the step's decoding. Safe. -/
  | reservedOp (w : TxnWord)
  /-- Code 17: a must-be-zero field is not zero; raised by the step's decoding. Safe. -/
  | nonzeroReservedField (w : TxnWord)
  /-- Code 18: a ROM load failed; raised by every transaction. Safe. -/
  | inactive (w : TxnWord)
  /-- Code 19: raised by DECODE in phase RUN or COMPOSED. Safe. -/
  | decodeNotFirst (w : TxnWord)
  /-- Code 20: raised by COMPOSE outside RUN. Safe. -/
  | composeOutOfPhase (w : TxnWord)
  /-- Code 20: raised by IRQCHK outside COMPOSED. Safe. -/
  | irqCheckOutOfPhase (w : TxnWord)
  /-- Code 21: raised by a bus or port transaction outside RUN, or a key event outside RUN and COMPOSED. Safe. -/
  | busOutOfPhase (w : TxnWord)
deriving DecidableEq, Repr

/-- A decoded tile, 8 x 8 (R36). -/
abbrev TileImage := Grid PixelIndex 8 8

/-- A decoded sprite, 16 x 16 (R37). -/
abbrev SpriteImage := Grid PixelIndex 16 16

/-- A decoded palette, four colours (R38). -/
abbrev Palette := Vector Pixel 4

/-- The framebuffer, 224 columns by 288 rows (R40). -/
abbrev Framebuffer := Grid Pixel 224 288

/-- The state `S` (R20), the two parameters read after construction, and the block's interface. -/
structure State where
  /-- Sequencing state (R22). -/
  phase : Phase
  /-- Program ROM by offset 0 to 0x3FFF (R24). -/
  prog : Memory
  /-- RAM by offset 0 to 0xFFF (R25). -/
  ram : Memory
  /-- Interrupt-enable bit (R28). -/
  ie : Bool
  /-- Sound-enable bit (R29). -/
  se : Bool
  /-- Flip-screen bit (R30). -/
  flip : Bool
  /-- Sprite-position table (R31). -/
  sprpos : Vector Byte 16
  /-- Interrupt-vector latch (R32). -/
  vec : Byte
  /-- Input latch IN0 (R33, R34). -/
  in0 : Byte
  /-- Input latch IN1 (R33, R34). -/
  in1 : Byte
  /-- DIP-switch byte (R35). -/
  dip : Byte
  /-- Decoded tile table (R36). -/
  tile : Vector TileImage 256
  /-- Decoded sprite table (R37). -/
  sprite : Vector SpriteImage 64
  /-- Decoded palette table (R38). -/
  pal : Vector Palette 32
  /-- Framebuffer, `fb[row][column]` (R40). -/
  fb : Framebuffer
  /-- Parameter ROM_IMAGES, read by DECODE only (R13, R39). -/
  roms : RomImages
  /-- Parameter TRANSPARENCY_KEY, read by COMPOSE (R13, R135). -/
  tkey : TransparencyKey
  /-- Transactions issued and not yet performed, oldest first. The model's own (log 1). -/
  pending : List TxnWord
  /-- What the last transaction handed back. The model's own (log 3). -/
  resp : Response
deriving DecidableEq, Repr

/-- The state at construction for given parameters (R42, R159). `prog`, `tile`, `sprite`, `pal` and `fb`, which have no value yet, are zero
(DESIGN CHOICE, log 6, 7, 8). -/
def State.construct (p : Params) : State where
  phase := .unloaded
  prog := []
  ram := p.initRam
  ie := false
  se := false
  flip := false
  sprpos := p.initSprpos
  vec := 0x00
  in0 := 0xFF
  in1 := 0xFF
  dip := p.dip
  tile := Vector.replicate 256 (Vector.replicate 8 (Vector.replicate 8 0))
  sprite := Vector.replicate 64 (Vector.replicate 16 (Vector.replicate 16 0))
  pal := Vector.replicate 32 (Vector.replicate 4 0)
  fb := Vector.replicate 288 (Vector.replicate 224 0)
  roms := p.romImages
  tkey := p.transparencyKey
  pending := []
  resp := .nothing

/-- The state right after reset: construction with the parameters of `Params.default` (R159; DESIGN CHOICE, log 4, log 5
and log 22). -/
def State.reset : State := State.construct Params.default

end Sys2Proof.Machine
end

