-- ==== Sys2Proof/Machine/Operands.lean ====
section
/-! DEFINITION. What operands stand for: bus addresses and the regions they fall in (R44, R45, R81, R82), keys and the latch bits they own (R118),
and the fields of the bytes the composer reads (R78, R79, R80). -/

namespace Sys2Proof.Machine

/-- The effective address: the bus address with bit 15 cleared (R44). -/
def effectiveAddress (addr : Word) : Nat := (addr &&& 0x7FFF).toNat

/-- The address of the second byte of a word access: `addr + 1` modulo 2^16 (R53). -/
def nextAddress (addr : Word) : Word := addr + 1

/-- The regions of a read (R81). -/
inductive ReadRegion where
  | rom
  | ram
  | in0
  | in1
  | dip
  | regNone
  | unmapped
deriving DecidableEq, Repr

/-- Read decode of an effective address (R81). -/
def readRegion (ea : Nat) : ReadRegion :=
  if ea ≤ 0x3FFF then .rom
  else if ea ≤ 0x4FFF then .ram
  else if ea ≤ 0x503F then .in0
  else if ea ≤ 0x507F then .in1
  else if ea ≤ 0x50BF then .dip
  else if ea ≤ 0x50FF then .regNone
  else .unmapped

/-- The regions of a write (R82). -/
inductive WriteRegion where
  | rom
  | ram
  | ie
  | se
  | flip
  | sprpos
  | regNop
  | unmapped
deriving DecidableEq, Repr

/-- Write decode of an effective address (R82). -/
def writeRegion (ea : Nat) : WriteRegion :=
  if ea ≤ 0x3FFF then .rom
  else if ea ≤ 0x4FFF then .ram
  else if ea = 0x5000 then .ie
  else if ea = 0x5001 then .se
  else if ea = 0x5003 then .flip
  else if 0x5060 ≤ ea ∧ ea ≤ 0x506F then .sprpos
  else if ea ≤ 0x50FF then .regNop
  else .unmapped

/-- One of the two input latches (R33). -/
inductive Latch where
  | in0
  | in1
deriving DecidableEq, Repr

/-- A momentary button or a toggle switch (R118). -/
inductive KeyKind where
  | momentary
  | toggle
deriving DecidableEq, Repr

/-- What a key owns (R118). -/
structure KeyBinding where
  latch : Latch
  bit : Nat
  kind : KeyKind
  inactive : Bool
deriving DecidableEq, Repr

/-- The key map (R118); an unrecognised key owns nothing (R119, R120). Its content is the spec's decision (log 13). -/
def keyBinding : Key → Option KeyBinding
  | .up => some ⟨.in0, 0, .momentary, true⟩
  | .down => some ⟨.in0, 3, .momentary, true⟩
  | .left => some ⟨.in0, 1, .momentary, true⟩
  | .right => some ⟨.in0, 2, .momentary, true⟩
  | .coin1 => some ⟨.in0, 5, .momentary, true⟩
  | .coin2 => some ⟨.in0, 6, .momentary, true⟩
  | .start1 => some ⟨.in1, 5, .momentary, true⟩
  | .start2 => some ⟨.in1, 6, .momentary, true⟩
  | .service => some ⟨.in0, 4, .toggle, true⟩
  | .test => some ⟨.in1, 4, .toggle, true⟩
  | .credit => some ⟨.in0, 7, .momentary, true⟩
  | .unrecognised _ => none

/-- `v` with bit `n` set to `b`. -/
def setBit (v : Byte) (n : Nat) (b : Bool) : Byte := if b then v ||| ((1 : Byte) <<< n) else v &&& ~~~((1 : Byte) <<< n)

/-- Sprite number, bits 7:2 of a code/flip byte (R78). -/
def spriteNumber (code : Byte) : BitVec 6 := code.extractLsb' 2 6

/-- Horizontal flip, bit 1 of a code/flip byte (R78). -/
def horizontalFlip (code : Byte) : Bool := code.getLsbD 1

/-- Vertical flip, bit 0 of a code/flip byte (R78). -/
def verticalFlip (code : Byte) : Bool := code.getLsbD 0

/-- Palette slot, bits 4:0 of a palette byte; bits 7:5 are ignored (R78, R80). -/
def paletteSlot (b : Byte) : BitVec 5 := b.extractLsb' 0 5

/-- RAM offset of the tile plane (R26). -/
def tilePlane : Nat := 0x000

/-- RAM offset of the palette plane (R26). -/
def palettePlane : Nat := 0x400

/-- RAM offset of the sprite attribute table (R27). -/
def spriteAttributes : Nat := 0xFF0

/-- The RAM offset of an effective address of RAM, `ea - 0x4000` (R25), in address arithmetic. -/
def ramOffset (addr : Word) : Nat := ((addr &&& 0x7FFF) - 0x4000).toNat

/-- The index in the sprite-position table of an effective address of it, `ea - 0x5060` (R31), in address arithmetic. -/
def spriteOffset (addr : Word) : Nat := ((addr &&& 0x7FFF) - 0x5060).toNat

end Sys2Proof.Machine
end

