-- ==== Sys2Proof/Machine/Flags.lean ====
section
/-! DEFINITION. PACCORE has no condition codes and no transaction sets a flag (R21, R23). What it has of the kind: the bit a register write
tests (R28), the success flag (R23), the fields of the DIP byte (R35), and the admission of transactions by phase (R160), with the refusals' codes (R144). -/

namespace Sys2Proof.Machine

/-- What a write to IE, SE or FLIP stores: bit 0 of the byte, the rest ignored (R28, R29, R30). -/
def registerBit (v : Byte) : Bool := v.getLsbD 0

/-- The success flag, meant after DECODE (R23). -/
def State.success (s : State) : Bool := decide (s.phase ≠ .inactive)

/-- Coins per credit, bits 1:0 of the DIP byte (R15, R35). -/
def State.coinsPerCredit (s : State) : BitVec 2 := s.dip.extractLsb' 0 2

/-- Lives per game, bits 3:2 of the DIP byte (R15, R35). -/
def State.livesPerGame (s : State) : BitVec 2 := s.dip.extractLsb' 2 2

/-- Bonus-score threshold, bits 5:4 of the DIP byte (R15, R35). -/
def State.bonusThreshold (s : State) : BitVec 2 := s.dip.extractLsb' 4 2

/-- Difficulty, bit 6 of the DIP byte (R15, R35). -/
def State.difficulty (s : State) : Bool := s.dip.getLsbD 6

/-- Ghost-name set, bit 7 of the DIP byte (R15, R35). -/
def State.ghostNames (s : State) : Bool := s.dip.getLsbD 7

/-- Upright cabinet, bit 7 of IN1 (R34). -/
def State.upright (s : State) : Bool := s.in1.getLsbD 7

/-- The rows of the admission table (R160). -/
inductive TxnClass where
  | load
  | bus
  | key
  | compose
  | irqCheck
deriving DecidableEq, Repr

/-- The row of a transaction (R160). -/
def txnClass : Instr → TxnClass
  | .rd8 _ => .bus
  | .wr8 _ _ => .bus
  | .rd16 _ => .bus
  | .wr16 _ _ => .bus
  | .inp _ => .bus
  | .out _ _ => .bus
  | .keydn _ => .key
  | .keyup _ => .key
  | .compose => .compose
  | .irqchk => .irqCheck
  | .decode => .load

/-- The admission table: none where the transaction is performed, else the refusal (R160; the order of the checks is R149's). -/
def admission (i : Instr) (p : Phase) : Option Refusal :=
  match p, txnClass i with
  | .inactive, _ => some (.inactive (encode i))
  | .unloaded, .load => none
  | .unloaded, .bus => some (.busOutOfPhase (encode i))
  | .unloaded, .key => some (.busOutOfPhase (encode i))
  | .unloaded, .compose => some (.composeOutOfPhase (encode i))
  | .unloaded, .irqCheck => some (.irqCheckOutOfPhase (encode i))
  | .run, .load => some (.decodeNotFirst (encode i))
  | .run, .bus => none
  | .run, .key => none
  | .run, .compose => none
  | .run, .irqCheck => some (.irqCheckOutOfPhase (encode i))
  | .composed, .load => some (.decodeNotFirst (encode i))
  | .composed, .bus => some (.busOutOfPhase (encode i))
  | .composed, .key => none
  | .composed, .compose => some (.composeOutOfPhase (encode i))
  | .composed, .irqCheck => none

/-- The refusal of a word that does not decode (R69). -/
def refusalOf : DecodeError → Refusal
  | .reservedOp w => .reservedOp w
  | .nonzeroReservedField w => .nonzeroReservedField w

/-- The outcome code of a refusal (R144); the one reason left has none. -/
def Refusal.code : Refusal → Option Nat
  | .reservedOp _ => some 16
  | .nonzeroReservedField _ => some 17
  | .inactive _ => some 18
  | .decodeNotFirst _ => some 19
  | .composeOutOfPhase _ => some 20
  | .irqCheckOutOfPhase _ => some 20
  | .busOutOfPhase _ => some 21
  | _ => none

/-- The word a refusal records (R144); the one reason left records none. -/
def Refusal.word : Refusal → Option TxnWord
  | .reservedOp w => some w
  | .nonzeroReservedField w => some w
  | .inactive w => some w
  | .decodeNotFirst w => some w
  | .composeOutOfPhase w => some w
  | .irqCheckOutOfPhase w => some w
  | .busOutOfPhase w => some w
  | _ => none

end Sys2Proof.Machine
end

