-- ==== Sys2Proof/Machine/Ops.lean ====
section
/-! DEFINITION. The named operations over PACCORE's storage: byte memory, images, registers, the bus reads and writes (41_bus.md), the interrupt
request (R140, R150), and the hand-over of transactions and results at the block's interface. -/

namespace Sys2Proof.Machine

/-! ## Byte memory -/

/-- The byte at an offset. -/
def Memory.read : Memory → Nat → Byte
  | [], _ => Memory.unlisted
  | (b, u) :: rest, a => if b = a then u else Memory.read rest a

/-- Storing a byte at an offset; the canonical form is kept (Laws/Memory.lean). -/
def Memory.write : Memory → Nat → Byte → Memory
  | [], a, v => if v = Memory.unlisted then [] else [(a, v)]
  | (b, u) :: rest, a, v =>
    if a < b then
      if v = Memory.unlisted then (b, u) :: rest else (a, v) :: (b, u) :: rest
    else if a = b then
      if v = Memory.unlisted then rest else (a, v) :: rest
    else (b, u) :: Memory.write rest a v

/-- The memory that holds a byte sequence from offset `a` on. -/
def Memory.ofBytes : Nat → List Byte → Memory
  | _, [] => []
  | a, v :: vs => if v = Memory.unlisted then Memory.ofBytes (a + 1) vs else (a, v) :: Memory.ofBytes (a + 1) vs

/-- The canonical form from offset `lo` up to `size`. -/
def Memory.wfFrom (lo size : Nat) : Memory → Bool
  | [] => true
  | (a, v) :: rest => decide (lo ≤ a) && decide (a < size) && decide (v ≠ Memory.unlisted) && Memory.wfFrom (a + 1) size rest

/-- The canonical form of a memory of `size` bytes: offsets strictly rising and below `size`, no byte equal to `Memory.unlisted`. -/
def Memory.wf (size : Nat) (m : Memory) : Bool := Memory.wfFrom 0 size m

/-! ## Images -/

/-- The vector of the values of `f` at 0, 1, … -/
def tabulate {α : Type} (n : Nat) (f : Nat → α) : Vector α n := ⟨((List.range n).map f).toArray, by simp⟩

/-- The value at row `y`, column `x`; `d` outside the image. -/
def gridGet {α : Type} {w h : Nat} (g : Grid α w h) (d : α) (y x : Nat) : α :=
  match g[y]? with
  | none => d
  | some row => row[x]?.getD d

/-- The image with row `y`, column `x` set; unchanged if that is outside it. -/
def gridSet {α : Type} {w h : Nat} (g : Grid α w h) (y x : Nat) (p : α) : Grid α w h :=
  match g[y]? with
  | none => g
  | some row => g.setIfInBounds y (row.setIfInBounds x p)

/-! ## Register and memory updates -/

/-- The byte of `S.prog` at an offset. -/
def State.progByte (s : State) (o : Nat) : Byte := Memory.read s.prog o

/-- The byte of `S.ram` at an offset. -/
def State.ramByte (s : State) (o : Nat) : Byte := Memory.read s.ram o

/-- Hand a result back. -/
def State.reply (s : State) (r : Response) : State := { s with resp := r }

/-- `S.phase <- p`. -/
def State.enter (s : State) (p : Phase) : State := { s with phase := p }

/-- `S.ram[o] <- v`. -/
def State.setRam (s : State) (o : Nat) (v : Byte) : State := { s with ram := Memory.write s.ram o v }

/-- `S.ie <- b`. -/
def State.setIe (s : State) (b : Bool) : State := { s with ie := b }

/-- `S.se <- b`. -/
def State.setSe (s : State) (b : Bool) : State := { s with se := b }

/-- `S.flip <- b`. -/
def State.setFlip (s : State) (b : Bool) : State := { s with flip := b }

/-- `S.sprpos[k] <- v`, k in 0 to 15. -/
def State.setSprpos (s : State) (k : Nat) (v : Byte) : State := { s with sprpos := s.sprpos.setIfInBounds k v }

/-- `S.vec <- v`. -/
def State.setVec (s : State) (v : Byte) : State := { s with vec := v }

/-- `S.fb <- f`. -/
def State.setFb (s : State) (f : Framebuffer) : State := { s with fb := f }

/-- The byte of an input latch. -/
def State.latch (s : State) : Latch → Byte
  | .in0 => s.in0
  | .in1 => s.in1

/-- `S.in0 <- v` or `S.in1 <- v`. -/
def State.setLatch (s : State) (l : Latch) (v : Byte) : State :=
  match l with
  | .in0 => { s with in0 := v }
  | .in1 => { s with in1 := v }

/-! ## Bus accesses -/

/-- `MemRead(addr, 1)`: the bus byte read (R96 to R103). -/
def busRead8 (s : State) (addr : Word) : Byte :=
  match readRegion (effectiveAddress addr) with
  | .rom => s.progByte (effectiveAddress addr)
  | .ram => s.ramByte (ramOffset addr)
  | .in0 => s.in0
  | .in1 => s.in1
  | .dip => s.dip
  | .regNone => 0xFF
  | .unmapped => 0xFF

/-- `MemWrite(addr, 1, v)`: the bus byte write (R104 to R112). -/
def busWrite8 (s : State) (addr : Word) (v : Byte) : State :=
  match writeRegion (effectiveAddress addr) with
  | .rom => s
  | .ram => s.setRam (ramOffset addr) v
  | .ie => s.setIe (registerBit v)
  | .se => s.setSe (registerBit v)
  | .flip => s.setFlip (registerBit v)
  | .sprpos => s.setSprpos (spriteOffset addr) v
  | .regNop => s
  | .unmapped => s

/-- `MemRead(addr, 2)`: two byte reads, the lower address in bits 7:0 (R113, R49). -/
def busRead16 (s : State) (addr : Word) : Word := busRead8 s (nextAddress addr) ++ busRead8 s addr

/-- `MemWrite(addr, 2, v)`: two byte writes, the low byte first (R114; the order is the spec's decision D8). -/
def busWrite16 (s : State) (addr : Word) (v : Word) : State :=
  busWrite8 (busWrite8 s addr (lowByte v)) (nextAddress addr) (highByte v)

/-- `input(port)`: 0 on every port (R115). -/
def portRead (_port : Byte) : Byte := 0x00

/-- `output(port, val)`: port 0 latches the vector, another port does nothing (R116). -/
def portWrite (s : State) (port val : Byte) : State := if port = 0 then s.setVec val else s

/-! ## The interrupt request

This is all PACCORE has of taking an exception: it saves no state, changes no mode or mask and transfers no control, and it has no return
(R150, R151). -/

/-- `emit IrqRequest(S.vec)`: one request, carrying the latched vector, to the CPU core (R140). -/
def State.emitIrq (s : State) : State := s.reply (.irqRequest s.vec)

/-! ## Transactions -/

/-- A transaction is performed where the phase admits it, and refused with nothing changed where it does not (R160, R146). -/
def perform (i : Instr) (s : State) (effect : State → State) : Host.Outcome State Fault Refusal :=
  match admission i s.phase with
  | none => .next (effect s)
  | some r => .refused r

/-- The oldest transaction issued and not yet performed, with the state that has let go of it (log 1). -/
def State.fetch (s : State) : Option (TxnWord × State) :=
  match s.pending with
  | [] => none
  | w :: rest => some (w, { s with pending := rest })

/-- The state with a transaction issued that is performed next (log 1). -/
def State.issue (s : State) (w : TxnWord) : State := { s with pending := w :: s.pending }

end Sys2Proof.Machine
end

