-- ==== Sys2Proof/Machine/Bus.lean ====
section
/-! DEFINITION. AddressBus: the meanings of RD8, WR8, RD16, WR16, IN and OUT (41_bus.md). -/

namespace Sys2Proof.Machine

/-- RD8 (R96): returns the byte; no field of `S` changes (R56). -/
def execRd8 (addr : Word) (s : State) : Host.Outcome State Fault Refusal :=
  perform (.rd8 addr) s fun s => s.reply (.byte (busRead8 s addr))

/-- WR8 (R104): writes at most the one field named for the address. -/
def execWr8 (addr : Word) (val : Byte) (s : State) : Host.Outcome State Fault Refusal :=
  perform (.wr8 addr val) s fun s => (busWrite8 s addr val).reply .nothing

/-- RD16 (R113). -/
def execRd16 (addr : Word) (s : State) : Host.Outcome State Fault Refusal :=
  perform (.rd16 addr) s fun s => s.reply (.word (busRead16 s addr))

/-- WR16 (R114). -/
def execWr16 (addr : Word) (val : Word) (s : State) : Host.Outcome State Fault Refusal :=
  perform (.wr16 addr val) s fun s => (busWrite16 s addr val).reply .nothing

/-- IN (R115). -/
def execInp (port : Byte) (s : State) : Host.Outcome State Fault Refusal :=
  perform (.inp port) s fun s => s.reply (.byte (portRead port))

/-- OUT (R116). -/
def execOut (port val : Byte) (s : State) : Host.Outcome State Fault Refusal :=
  perform (.out port val) s fun s => (portWrite s port val).reply .nothing

end Sys2Proof.Machine
end

