-- ==== Sys2Proof/Machine/FrameComposer.lean ====
section
/-! DEFINITION. FrameComposer: the tile and sprite passes, the meaning of COMPOSE, and the output contract (43_frame_composer.md).

A pass is a list of block draws in the spec's order; a pixel of the frame is the old pixel painted over by them one after another. That this is
what the pseudocode's pixel-by-pixel loops leave is stated in Certificates/Slice0/Obligations.lean (log 16). -/

namespace Sys2Proof.Machine

/-! ## Block draws -/

/-- One block written into the frame: its top-left pixel, its width and height, and at each row and column of it the colour written, or none
where nothing is written. -/
structure Draw where
  x0 : Int
  y0 : Int
  w : Nat
  h : Nat
  pixel : Nat → Nat → Option Pixel

/-- The block has pixels in frame row `y`. -/
def Draw.inRow (d : Draw) (y : Nat) : Bool := decide (d.y0 ≤ y) && decide (y < d.y0 + d.h)

/-- The block has pixels in frame column `x`. -/
def Draw.inColumn (d : Draw) (x : Nat) : Bool := decide (d.x0 ≤ x) && decide (x < d.x0 + d.w)

/-- What the block writes at frame row `y`, column `x`. -/
def Draw.at (d : Draw) (y x : Nat) : Option Pixel :=
  if d.inRow y && d.inColumn x then d.pixel (y - d.y0).toNat (x - d.x0).toNat else none

/-- Painting blocks over a pixel at frame row `y`, column `x`, the first of the list first. -/
def paint (ds : List Draw) (y x : Nat) (p : Pixel) : Pixel := ds.foldl (fun p d => (d.at y x).getD p) p

/-! ## What the composer reads -/

/-- Entry `k` of palette slot `p`. -/
def State.paletteEntry (s : State) (p : BitVec 5) (k : PixelIndex) : Pixel :=
  (s.pal[p.toNat]'(by have := p.isLt; omega))[k.toNat]'(by have := k.isLt; omega)

/-- Pixel index of tile `t` at row `r`, column `c`. -/
def State.tilePixel (s : State) (t : Byte) (r c : Nat) : PixelIndex :=
  gridGet (s.tile[t.toNat]'(by have := t.isLt; omega)) 0 r c

/-- Pixel index of sprite `n` at row `r`, column `c`, unflipped. -/
def State.spritePixel (s : State) (n : BitVec 6) (r c : Nat) : PixelIndex :=
  gridGet (s.sprite[n.toNat]'(by have := n.isLt; omega)) 0 r c

/-! ## Tile pass -/

/-- `a..b`, both included (R17). -/
def span (a b : Nat) : List Nat := List.range' a (b + 1 - a)

/-- The tile of the location with tile-plane offset `o`, at screen tile (`sx`, `sy`): opaque and unflipped (R126). -/
def drawTile (s : State) (o sx sy : Nat) : Draw :=
  let t := s.ramByte (tilePlane + o)
  let p := paletteSlot (s.ramByte (palettePlane + o))
  { x0 := 8 * sx, y0 := 8 * sy, w := 8, h := 8, pixel := fun r c => some (s.paletteEntry p (s.tilePixel t r c)) }

/-- Bottom border (R127). -/
def tilePassBottom (s : State) : List Draw :=
  (span 0 1).flatMap fun row => (span 2 29).map fun col => drawTile s (0x000 + 32 * row + col) (29 - col) (34 + row)

/-- Main playfield (R128). -/
def tilePassMain (s : State) : List Draw :=
  (span 0 27).flatMap fun col => (span 0 31).map fun row => drawTile s (0x040 + 32 * col + row) (27 - col) (2 + row)

/-- Top border (R129). -/
def tilePassTop (s : State) : List Draw :=
  (span 0 1).flatMap fun row => (span 2 29).map fun col => drawTile s (0x3C0 + 32 * row + col) (29 - col) row

/-! ## Sprite pass -/

/-- A sprite slot's bytes (R132). -/
structure SpriteSlot where
  number : BitVec 6
  hflip : Bool
  vflip : Bool
  slot : BitVec 5
  posX : Byte
  posY : Byte
deriving DecidableEq, Repr

/-- Sprite fetch of slot `i`, 0 to 7 (R132). -/
def fetchSprite (s : State) (i : Nat) : SpriteSlot :=
  let code := s.ramByte (spriteAttributes + 2 * i)
  let palb := s.ramByte (spriteAttributes + 1 + 2 * i)
  { number := spriteNumber code
    hflip := horizontalFlip code
    vflip := verticalFlip code
    slot := paletteSlot palb
    posX := s.sprpos[2 * i]?.getD 0
    posY := s.sprpos[2 * i + 1]?.getD 0 }

/-- Screen column of a sprite's left edge, in integers (R133). -/
def spriteX (posX : Byte) : Int := 224 - (posX.toNat : Int) + 15

/-- Screen row of a sprite's top edge, in integers (R133). -/
def spriteY (posY : Byte) : Int := 288 - (posY.toNat : Int) - 16

/-- The transparency key of palette slot `p`, by the parameter's reading (R135). -/
def transparencyKey (s : State) (p : BitVec 5) : Pixel :=
  match s.tkey with
  | .ownEntry0 => s.paletteEntry p 0
  | .palette0Entry0 => s.paletteEntry 0 0

/-- The source row or column of a flipped or unflipped sprite (R134). -/
def flipped (f : Bool) (k : Nat) : Nat := if f then 15 - k else k

/-- The sprite of slot `i`: a pixel whose resolved colour is the key is not written (R134, R135). Pixels outside the frame are not part of it
(R136). -/
def drawSprite (s : State) (i : Nat) : Draw :=
  let f := fetchSprite s i
  let key := transparencyKey s f.slot
  { x0 := spriteX f.posX
    y0 := spriteY f.posY
    w := 16
    h := 16
    pixel := fun r c =>
      let col := s.paletteEntry f.slot (s.spritePixel f.number (flipped f.vflip r) (flipped f.hflip c))
      if col = key then none else some col }

/-- Sprite pass: slot 7 first, slot 0 last (R131). -/
def spritePass (s : State) : List Draw := (List.range 8).reverse.map (drawSprite s)

/-! ## The frame -/

/-- Everything a COMPOSE draws, in order (R124). -/
def drawList (s : State) : List Draw := tilePassBottom s ++ tilePassMain s ++ tilePassTop s ++ spritePass s

/-- The composed framebuffer (R124): each row is painted by the blocks that have pixels in it. -/
def composeFrame (s : State) : Framebuffer :=
  let ds := drawList s
  tabulate 288 fun y =>
    let inRow := ds.filter (fun d => d.inRow y)
    tabulate 224 fun x => paint inRow y x (gridGet s.fb 0 y x)

/-- COMPOSE (R124). -/
def execCompose (s : State) : Host.Outcome State Fault Refusal :=
  perform .compose s fun s => ((s.setFb (composeFrame s)).enter .composed).reply .nothing

/-! ## Output contract -/

/-- A pixel word's bytes in increasing order: alpha, blue, green, red (R77, R138). -/
def pixelBytes (p : Pixel) : List Byte :=
  [p.extractLsb' 0 8, p.extractLsb' 8 8, p.extractLsb' 16 8, p.extractLsb' 24 8]

/-- The buffer handed to the presentation sink: row-major, top to bottom, 258048 bytes (R138). -/
def framebufferBytes (f : Framebuffer) : List Byte := f.toList.flatMap fun row => row.toList.flatMap pixelBytes

end Sys2Proof.Machine
end

