-- ==== Sys2Proof/Machine/InputLatch.lean ====
section
/-! DEFINITION. InputLatch: the meanings of KEYDN and KEYUP (42_input_latch.md). -/

namespace Sys2Proof.Machine

/-- A key goes down: a momentary button's bit takes its active value, a toggle does nothing, an unrecognised key is ignored (R119). -/
def keyDown (s : State) (key : Key) : State :=
  match keyBinding key with
  | none => s
  | some k =>
    match k.kind with
    | .momentary => s.setLatch k.latch (setBit (s.latch k.latch) k.bit (!k.inactive))
    | .toggle => s

/-- A key goes up: a momentary button's bit takes its inactive value, a toggle's bit flips, an unrecognised key is ignored (R120). -/
def keyUp (s : State) (key : Key) : State :=
  match keyBinding key with
  | none => s
  | some k =>
    match k.kind with
    | .momentary => s.setLatch k.latch (setBit (s.latch k.latch) k.bit k.inactive)
    | .toggle => s.setLatch k.latch (setBit (s.latch k.latch) k.bit (!(s.latch k.latch).getLsbD k.bit))

/-- KEYDN (R119). -/
def execKeydn (key : Key) (s : State) : Host.Outcome State Fault Refusal :=
  perform (.keydn key) s fun s => (keyDown s key).reply .nothing

/-- KEYUP (R120). -/
def execKeyup (key : Key) (s : State) : Host.Outcome State Fault Refusal :=
  perform (.keyup key) s fun s => (keyUp s key).reply .nothing

end Sys2Proof.Machine
end

