-- ==== Sys2Proof/Machine/InterruptLine.lean ====
section
/-! DEFINITION. InterruptLine: the meaning of IRQCHK (44_interrupt.md). -/

namespace Sys2Proof.Machine

/-- IRQCHK (R140): one request carrying the latched vector if interrupts are enabled, none otherwise; then the next frame's CPU span. The
enable bit and the vector stay. -/
def execIrqchk (s : State) : Host.Outcome State Fault Refusal :=
  perform .irqchk s fun s => (if s.ie then s.emitIrq else s.reply .nothing).enter .run

end Sys2Proof.Machine
end

