-- ==== Sys2Proof/Machine/RomDecoder.lean ====
section
/-! DEFINITION. RomDecoder: the ROM load and the decoding of the graphics ROMs (40_rom_decoder.md), and the meaning of DECODE. -/

namespace Sys2Proof.Machine

/-! ## Strips, tiles, sprites -/

/-- The pixel index a strip byte gives its column at strip row `q`, 0 the top (R72). -/
def stripPixel (b : Byte) (q : Nat) : PixelIndex := BitVec.ofBool (b.getLsbD (7 - q)) ++ BitVec.ofBool (b.getLsbD (3 - q))

/-- Strip decode: ROM bytes `b 0` to `b 7` into the 8 x 4 block whose top-left pixel is column `bx`, row `by0` (R88). -/
def strip {w h : Nat} (img : Grid PixelIndex w h) (b : Nat → Byte) (bx by0 : Nat) : Grid PixelIndex w h :=
  (List.range 8).foldl (fun img j =>
    (List.range 4).foldl (fun img q => gridSet img (by0 + q) (bx + 7 - j) (stripPixel (b j) q)) img) img

/-- The byte of a ROM image at an offset. -/
def romByte (rom : List Byte) (o : Nat) : Byte := rom.getD o 0

/-- The image every pixel of which is still to be written. -/
def blankImage (w h : Nat) : Grid PixelIndex w h := Vector.replicate h (Vector.replicate w 0)

/-- Tile `t`: the first 8 of its 16 bytes are rows 4 to 7, the next 8 rows 0 to 3 (R90, R73). -/
def decodeTile (rom : List Byte) (t : Nat) : TileImage :=
  strip (strip (blankImage 8 8) (fun j => romByte rom (16 * t + j)) 0 4) (fun j => romByte rom (16 * t + 8 + j)) 0 0

/-- The tile table (R90). -/
def decodeTiles (rom : List Byte) : Vector TileImage 256 := tabulate 256 (decodeTile rom)

/-- Destination columns of a sprite's strips (R74, R91; the spec's decision, log 13). -/
def stripColumns : List Nat := [8, 8, 8, 8, 0, 0, 0, 0]

/-- Destination rows of a sprite's strips (R74, R91; the spec's decision, log 13). -/
def stripRows : List Nat := [12, 0, 4, 8, 12, 0, 4, 8]

/-- Sprite `n`: eight strips, each to its place (R91). -/
def decodeSprite (rom : List Byte) (n : Nat) : SpriteImage :=
  (List.range 8).foldl (fun img k =>
    strip img (fun j => romByte rom (64 * n + 8 * k + j)) (stripColumns.getD k 0) (stripRows.getD k 0)) (blankImage 16 16)

/-- The sprite table (R91). -/
def decodeSprites (rom : List Byte) : Vector SpriteImage 64 := tabulate 64 (decodeSprite rom)

/-! ## Colours and palettes -/

/-- `k` if bit `n` of a colour byte is set, else 0. -/
def weight (c : Byte) (n k : Nat) : Nat := if c.getLsbD n then k else 0

/-- Red of a colour byte (R76). -/
def red (c : Byte) : Nat := weight c 0 0x21 + weight c 1 0x47 + weight c 2 0x97

/-- Green of a colour byte (R76). -/
def green (c : Byte) : Nat := weight c 3 0x21 + weight c 4 0x47 + weight c 5 0x97

/-- Blue of a colour byte (R76). -/
def blue (c : Byte) : Nat := weight c 6 0x51 + weight c 7 0xAE

/-- The opaque pixel word of a colour (R77). -/
def rgba (r g b : Byte) : Pixel := r ++ g ++ b ++ (0xFF : Byte)

/-- Colour decode (R93). -/
def colour (c : Byte) : Pixel := rgba (BitVec.ofNat 8 (red c)) (BitVec.ofNat 8 (green c)) (BitVec.ofNat 8 (blue c))

/-- The colour-ROM index of palette slot `p`, pixel index `k`: the low nibble of palette-ROM byte `4p + k` (R75). -/
def colourIndex (palrom : List Byte) (p k : Nat) : Nat := (romByte palrom (4 * p + k) &&& 0x0F).toNat

/-- The palette table (R92). -/
def decodePalettes (colrom palrom : List Byte) : Vector Palette 32 :=
  tabulate 32 fun p => tabulate 4 fun k => colour (romByte colrom (colourIndex palrom p k))

/-! ## The load -/

/-- The images of a load, in the order they are checked (R84). -/
def romNames : List RomName := [.prog0, .prog1, .prog2, .prog3, .colrom, .palrom, .tilerom, .sprrom]

/-- The size an image must have at least (R84). -/
def romNeed : RomName → Nat
  | .prog0 => 4096
  | .prog1 => 4096
  | .prog2 => 4096
  | .prog3 => 4096
  | .colrom => 32
  | .palrom => 256
  | .tilerom => 4096
  | .sprrom => 4096

/-- The outcome code of an image's load failure (R144). -/
def loadFailureCode : RomName → Nat
  | .prog0 => 1
  | .prog1 => 2
  | .prog2 => 3
  | .prog3 => 4
  | .colrom => 5
  | .palrom => 6
  | .tilerom => 7
  | .sprrom => 8

/-- An image of ROM_IMAGES; none if it is missing. -/
def romImage (r : RomImages) : RomName → Option (List Byte)
  | .prog0 => r.prog0
  | .prog1 => r.prog1
  | .prog2 => r.prog2
  | .prog3 => r.prog3
  | .colrom => r.colrom
  | .palrom => r.palrom
  | .tilerom => r.tilerom
  | .sprrom => r.sprrom

/-- An image is missing or shorter than its size (R84, R85). -/
def romFails (r : RomImages) (x : RomName) : Bool :=
  match romImage r x with
  | none => true
  | some bytes => decide (bytes.length < romNeed x)

/-- The failing images, in the order of the load (R84, R145). -/
def failingImages (r : RomImages) : List RomName := romNames.filter (romFails r)

/-- The bytes of an image; nothing where it is missing. -/
def romBytes (r : RomImages) (x : RomName) : List Byte := (romImage r x).getD []

/-- The program ROM: the four chunks one after another, each by its first 4096 bytes (R84, R86). -/
def loadProgram (r : RomImages) : Memory :=
  Memory.ofBytes 0 ((romBytes r .prog0).take 4096 ++ (romBytes r .prog1).take 4096 ++ (romBytes r .prog2).take 4096 ++
    (romBytes r .prog3).take 4096)

/-- The state with the program ROM and the decoded tables of the images (R84). -/
def State.loadTables (s : State) (r : RomImages) : State :=
  { s with
    prog := loadProgram r
    tile := decodeTiles (romBytes r .tilerom)
    sprite := decodeSprites (romBytes r .sprrom)
    pal := decodePalettes (romBytes r .colrom) (romBytes r .palrom) }

/-- The load and decode, once admitted: INACTIVE with every failing image reported and nothing else written, or the tables and RUN (R84, R85). -/
def State.load (s : State) : State :=
  if failingImages s.roms = [] then ((s.loadTables s.roms).enter .run).reply .nothing
  else (s.enter .inactive).reply (.loadFailures (failingImages s.roms))

/-- DECODE (R84). -/
def execDecode (s : State) : Host.Outcome State Fault Refusal := perform .decode s State.load

end Sys2Proof.Machine
end

