-- ==== Sys2Proof/Machine/Dispatch.lean ====
section
/-! DEFINITION. The meaning of each transaction: one arm per constructor, one direct call each. -/

namespace Sys2Proof.Machine

def exec (i : Instr) (s : State) : Host.Outcome State Fault Refusal :=
  match i with
  | .rd8 addr => Sys2Proof.Machine.execRd8 addr s
  | .wr8 addr val => Sys2Proof.Machine.execWr8 addr val s
  | .rd16 addr => Sys2Proof.Machine.execRd16 addr s
  | .wr16 addr val => Sys2Proof.Machine.execWr16 addr val s
  | .inp port => Sys2Proof.Machine.execInp port s
  | .out port val => Sys2Proof.Machine.execOut port val s
  | .keydn key => Sys2Proof.Machine.execKeydn key s
  | .keyup key => Sys2Proof.Machine.execKeyup key s
  | .compose => Sys2Proof.Machine.execCompose s
  | .irqchk => Sys2Proof.Machine.execIrqchk s
  | .decode => Sys2Proof.Machine.execDecode s

end Sys2Proof.Machine
end

