-- ==== Sys2Proof/Machine/Step.lean ====
section
/-! DEFINITION. One step: the oldest pending transaction is taken, decoded and performed (R3, R18). -/

namespace Sys2Proof.Machine

/-- One step. With no transaction pending the passive block does nothing (DEDUCED, log 2). A word that stands for no transaction is refused
(R69); the refusals of R160 come from the transaction's meaning, after it, as R149 orders them. -/
def step (s : State) : Host.Outcome State Fault Refusal :=
  match s.fetch with
  | none => .next s
  | some (w, t) =>
    match decodeWord w with
    | .error e => .refused (refusalOf e)
    | .ok i => exec i t

/-- `s` with the transaction word in the low `nbits` bits of `w`, the bits above them zero, issued so that the next step performs it. Nothing
else changes: whether the phase admits it is the transaction's own meaning (R160; log 1). -/
def State.withFetchWord (s : State) (nbits w : Nat) : State := s.issue (BitVec.ofNat 40 (w % 2 ^ nbits))

end Sys2Proof.Machine
end

