-- ==== Sys2Proof/Safety.lean ====
section
/-! DEFINITION. What a run is, where it may end, and the invariant of the states a run can be in. -/

namespace Sys2Proof.Machine

/-- Transactions performed one after another, up to the first refusal (R18, R58, R146). -/
def performAll : List Instr → State → Host.Outcome State Fault Refusal
  | [], s => .next s
  | i :: is, s =>
    match exec i s with
    | .next t => performAll is t
    | .fault f => .fault f
    | .refused r => .refused r

/-- A safe run: `n` steps, none refused (R146). -/
def Safe (n : Nat) (s : State) : Prop := ∃ t, Host.Core.run Sys2Proof.core n s = .next t

/-- A run's defined ends: phase RUN right after an IRQCHK or a DECODE, or phase INACTIVE (R162). `last` is the last transaction performed. -/
def definedEnd (last : Instr) (s : State) : Bool :=
  match s.phase with
  | .inactive => true
  | .run => decide (last = .irqchk ∨ last = .decode)
  | .unloaded => false
  | .composed => false

/-- A transaction of the CPU span of a frame: bus, port or key (R161). -/
def inSpan (i : Instr) : Bool := decide (txnClass i = .bus ∨ txnClass i = .key)

/-- A key event (R161). -/
def isKey (i : Instr) : Bool := decide (txnClass i = .key)

/-- A pixel word is opaque: its alpha byte is 0xFF (R77). -/
def opaquePixel (p : Pixel) : Prop := p.extractLsb' 0 8 = 0xFF

/-- Parameters as R13 gives them: INIT_RAM is 4096 bytes, in the canonical form. -/
def Params.wf (p : Params) : Prop := Memory.wf 0x1000 p.initRam = true

/-- The invariant: the memories are 4096 and 16384 bytes in canonical form (R24, R25), the bits of IN1 that no key drives keep their value 1
(R34), and every colour is opaque: in the palettes once they are decoded (R77), in the frame once it is composed (R130). -/
structure Inv (s : State) : Prop where
  ram_wf : Memory.wf 0x1000 s.ram = true
  prog_wf : Memory.wf 0x4000 s.prog = true
  in1_fixed : s.in1 &&& 0x8F = 0x8F
  pal_opaque : s.phase = .run ∨ s.phase = .composed → ∀ p k, opaquePixel (s.paletteEntry p k)
  fb_opaque : s.phase = .composed → ∀ y x, y < 288 → x < 224 → opaquePixel (gridGet s.fb 0 y x)

end Sys2Proof.Machine
end

