-- ==== Sys2Proof/Certificates/Slice0/Obligations.lean ====
section
/-! DEFINITION. The statements for the provers, and the words of the spec's rules they are written in: tables and formulas taken from the rules,
not from the model's own definitions. -/

/-! ## The rules' tables, in numerals -/

namespace Sys2Proof.Spec

open Sys2Proof.Machine

/-- Effective address: the bus address modulo 2^15 (R44). -/
def ea (addr : Word) : Nat := addr.toNat % 0x8000

/-- The "read returns" column of R45. -/
def readByte (s : State) (addr : Word) : Byte :=
  if ea addr < 0x4000 then Memory.read s.prog (ea addr)
  else if ea addr < 0x5000 then Memory.read s.ram (ea addr - 0x4000)
  else if ea addr < 0x5040 then s.in0
  else if ea addr < 0x5080 then s.in1
  else if ea addr < 0x50C0 then s.dip
  else 0xFF

/-- Bit 0 of a written byte (R28). -/
def bit0 (v : Byte) : Bool := decide (v.toNat % 2 = 1)

/-- Bits of IN0 that KEYDN of a key clears, as an AND mask (R118, R119). -/
def in0Mask : Key → Byte
  | .up => 0xFE
  | .down => 0xF7
  | .left => 0xFD
  | .right => 0xFB
  | .coin1 => 0xDF
  | .coin2 => 0xBF
  | .credit => 0x7F
  | .start1 => 0xFF
  | .start2 => 0xFF
  | .service => 0xFF
  | .test => 0xFF
  | .unrecognised _ => 0xFF

/-- Bits of IN1 that KEYDN of a key clears, as an AND mask (R118, R119). -/
def in1Mask : Key → Byte
  | .start1 => 0xDF
  | .start2 => 0xBF
  | .up => 0xFF
  | .down => 0xFF
  | .left => 0xFF
  | .right => 0xFF
  | .coin1 => 0xFF
  | .coin2 => 0xFF
  | .credit => 0xFF
  | .service => 0xFF
  | .test => 0xFF
  | .unrecognised _ => 0xFF

/-- What KEYUP of a toggle flips in IN0 (R118, R120). -/
def in0Flip (key : Key) : Byte := if key = .service then 0x10 else 0x00

/-- What KEYUP of a toggle flips in IN1 (R118, R120). -/
def in1Flip (key : Key) : Byte := if key = .test then 0x10 else 0x00

/-- OP of a word (R64). -/
def op (w : TxnWord) : Nat := w.toNat / 2 ^ 36

/-- K of a word (R64). -/
def k (w : TxnWord) : Nat := w.toNat / 2 ^ 32 % 16

/-- A of a word (R64). -/
def a (w : TxnWord) : Nat := w.toNat / 2 ^ 16 % 2 ^ 16

/-- D of a word (R64). -/
def d (w : TxnWord) : Nat := w.toNat % 2 ^ 16

/-- The word with the given fields (R64, R65). -/
def word (op k a d : Nat) : TxnWord := BitVec.ofNat 40 (op * 2 ^ 36 + k * 2 ^ 32 + a * 2 ^ 16 + d)

/-- A word of a defined OP has a non-zero must-be-zero field (R65, the "must be zero" column). -/
def reservedFieldSet (w : TxnWord) : Prop :=
  (op w = 1 ∧ (k w ≠ 0 ∨ d w ≠ 0)) ∨
  (op w = 2 ∧ (k w ≠ 0 ∨ d w / 256 ≠ 0)) ∨
  (op w = 3 ∧ (k w ≠ 0 ∨ d w ≠ 0)) ∨
  (op w = 4 ∧ k w ≠ 0) ∨
  (op w = 5 ∧ (k w ≠ 0 ∨ a w / 256 ≠ 0 ∨ d w ≠ 0)) ∨
  (op w = 6 ∧ (k w ≠ 0 ∨ a w / 256 ≠ 0 ∨ d w / 256 ≠ 0)) ∨
  ((op w = 7 ∨ op w = 8) ∧ (a w ≠ 0 ∨ d w ≠ 0)) ∨
  ((op w = 9 ∨ op w = 10 ∨ op w = 11) ∧ (k w ≠ 0 ∨ a w ≠ 0 ∨ d w ≠ 0))

/-- The "raised by" and "when" columns of R144: refusal code `c` applies to word `w` in phase `p`. -/
def refusalApplies (w : TxnWord) (p : Phase) (c : Nat) : Prop :=
  (c = 16 ∧ (op w = 0 ∨ 12 ≤ op w)) ∨
  (c = 17 ∧ reservedFieldSet w) ∨
  (c = 18 ∧ p = .inactive) ∨
  (c = 19 ∧ op w = 11 ∧ (p = .run ∨ p = .composed)) ∨
  (c = 20 ∧ ((op w = 9 ∧ p ≠ .run) ∨ (op w = 10 ∧ p ≠ .composed))) ∨
  (c = 21 ∧ ((1 ≤ op w ∧ op w ≤ 6 ∧ p ≠ .run) ∨ ((op w = 7 ∨ op w = 8) ∧ p ≠ .run ∧ p ≠ .composed)))

/-- The cells of the admission table of R160: the refusal's code, or none where the transaction is performed. -/
def admissionCode : Instr → Phase → Option Nat
  | _, .inactive => some 18
  | .decode, .unloaded => none
  | .decode, _ => some 19
  | .compose, .run => none
  | .compose, _ => some 20
  | .irqchk, .composed => none
  | .irqchk, _ => some 20
  | .keydn _, .unloaded => some 21
  | .keydn _, _ => none
  | .keyup _, .unloaded => some 21
  | .keyup _, _ => none
  | _, .run => none
  | _, _ => some 21

/-- The eight images, each at least as long as its size (R84). -/
structure GoodImages (r : RomImages) (p0 p1 p2 p3 col pal til spr : List Byte) : Prop where
  images : r = ⟨some p0, some p1, some p2, some p3, some col, some pal, some til, some spr⟩
  prog0 : 4096 ≤ p0.length
  prog1 : 4096 ≤ p1.length
  prog2 : 4096 ≤ p2.length
  prog3 : 4096 ≤ p3.length
  colrom : 32 ≤ col.length
  palrom : 256 ≤ pal.length
  tilerom : 4096 ≤ til.length
  sprrom : 4096 ≤ spr.length

/-- An image is missing or short (R85). -/
def missingOrShort (r : RomImages) : RomName → Prop
  | .prog0 => ∀ x, r.prog0 = some x → x.length < 4096
  | .prog1 => ∀ x, r.prog1 = some x → x.length < 4096
  | .prog2 => ∀ x, r.prog2 = some x → x.length < 4096
  | .prog3 => ∀ x, r.prog3 = some x → x.length < 4096
  | .colrom => ∀ x, r.colrom = some x → x.length < 32
  | .palrom => ∀ x, r.palrom = some x → x.length < 256
  | .tilerom => ∀ x, r.tilerom = some x → x.length < 4096
  | .sprrom => ∀ x, r.sprrom = some x → x.length < 4096

/-- The pixel index that strip byte `b` gives strip row `q` (R72), as a number. -/
def stripIndex (b : Byte) (q : Nat) : Nat := 2 * (b.getLsbD (7 - q)).toNat + (b.getLsbD (3 - q)).toNat

/-- The weighted sums of R76. -/
def channelR (c : Byte) : Nat := 0x21 * (c.getLsbD 0).toNat + 0x47 * (c.getLsbD 1).toNat + 0x97 * (c.getLsbD 2).toNat

def channelG (c : Byte) : Nat := 0x21 * (c.getLsbD 3).toNat + 0x47 * (c.getLsbD 4).toNat + 0x97 * (c.getLsbD 5).toNat

def channelB (c : Byte) : Nat := 0x51 * (c.getLsbD 6).toNat + 0xAE * (c.getLsbD 7).toNat

/-- The pixel word of R77, as a number. -/
def colourWord (c : Byte) : Nat := channelR c * 2 ^ 24 + channelG c * 2 ^ 16 + channelB c * 2 ^ 8 + 0xFF

/-! ### The composer's pseudocode, pixel write by pixel write -/

/-- The palette slot of a palette byte: its low five bits (R80). -/
def slotOf (b : Byte) : BitVec 5 := BitVec.ofNat 5 (b.toNat % 32)

/-- `draw_tile` (R126). -/
def drawTile (s : State) (fb : Framebuffer) (o screenX screenY : Nat) : Framebuffer :=
  (List.range 8).foldl (fun fb r =>
    (List.range 8).foldl (fun fb c =>
      gridSet fb (8 * screenY + r) (8 * screenX + c)
        (s.paletteEntry (slotOf (Memory.read s.ram (0x400 + o))) (s.tilePixel (Memory.read s.ram o) r c))) fb) fb

/-- `tile_pass_bottom` (R127): rows 0 to 1, columns 2 to 29. -/
def tilePassBottom (s : State) (fb : Framebuffer) : Framebuffer :=
  (List.range 2).foldl (fun fb row =>
    (List.range' 2 28).foldl (fun fb col => drawTile s fb (32 * row + col) (29 - col) (34 + row)) fb) fb

/-- `tile_pass_main` (R128): columns 0 to 27, rows 0 to 31. -/
def tilePassMain (s : State) (fb : Framebuffer) : Framebuffer :=
  (List.range 28).foldl (fun fb col =>
    (List.range 32).foldl (fun fb row => drawTile s fb (0x040 + 32 * col + row) (27 - col) (2 + row)) fb) fb

/-- `tile_pass_top` (R129): rows 0 to 1, columns 2 to 29. -/
def tilePassTop (s : State) (fb : Framebuffer) : Framebuffer :=
  (List.range 2).foldl (fun fb row =>
    (List.range' 2 28).foldl (fun fb col => drawTile s fb (0x3C0 + 32 * row + col) (29 - col) row) fb) fb

/-- The code/flip byte of a sprite slot (R132). -/
def codeByte (s : State) (i : Nat) : Byte := Memory.read s.ram (0xFF0 + 2 * i)

/-- The palette slot of a sprite slot (R132). -/
def spriteSlot (s : State) (i : Nat) : BitVec 5 := slotOf (Memory.read s.ram (0xFF1 + 2 * i))

/-- The left edge of a sprite slot, `224 - posX + 15` (R133). -/
def spriteLeft (s : State) (i : Nat) : Int := 224 - ((s.sprpos[2 * i]?.getD 0).toNat : Int) + 15

/-- The top edge of a sprite slot, `288 - posY - 16` (R133). -/
def spriteTop (s : State) (i : Nat) : Int := 288 - ((s.sprpos[2 * i + 1]?.getD 0).toNat : Int) - 16

/-- The key colour of a sprite slot (R135). -/
def keyColour (s : State) (i : Nat) : Pixel :=
  if s.tkey = .ownEntry0 then s.paletteEntry (spriteSlot s i) 0 else s.paletteEntry 0 0

/-- The resolved colour of a sprite slot at row `r`, column `c` of the drawn block (R134): sprite number from bits 7:2 of the code, columns
mirrored by bit 1, rows by bit 0. -/
def spriteColour (s : State) (i r c : Nat) : Pixel :=
  let code := codeByte s i
  s.paletteEntry (spriteSlot s i)
    (s.spritePixel (BitVec.ofNat 6 (code.toNat / 4)) (if code.getLsbD 0 then 15 - r else r) (if code.getLsbD 1 then 15 - c else c))

/-- `draw_sprite` (R134). -/
def drawSprite (s : State) (fb : Framebuffer) (i : Nat) : Framebuffer :=
  (List.range 16).foldl (fun fb r =>
    (List.range 16).foldl (fun fb c =>
      if spriteColour s i r c = keyColour s i then fb
      else if 0 ≤ spriteLeft s i + c ∧ spriteLeft s i + c ≤ 223 ∧ 0 ≤ spriteTop s i + r ∧ spriteTop s i + r ≤ 287 then
        gridSet fb (spriteTop s i + r).toNat (spriteLeft s i + c).toNat (spriteColour s i r c)
      else fb) fb) fb

/-- `sprite_pass` (R131): slot 7 down to slot 0. -/
def spritePass (s : State) (fb : Framebuffer) : Framebuffer := [7, 6, 5, 4, 3, 2, 1, 0].foldl (drawSprite s) fb

/-- The passes of COMPOSE, in order (R124). -/
def composeLoops (s : State) : Framebuffer := spritePass s (tilePassTop s (tilePassMain s (tilePassBottom s s.fb)))

/-! ### What stands at one pixel -/

/-- The tile-plane offset of the tile at screen tile (`sx`, `sy`), from the three transforms of R127, R128, R129. -/
def tileOffset (sx sy : Nat) : Nat :=
  if sy < 2 then 0x3C0 + 32 * sy + (29 - sx)
  else if sy < 34 then 0x040 + 32 * (27 - sx) + (sy - 2)
  else 32 * (sy - 34) + (29 - sx)

/-- The tile layer's pixel at row `y`, column `x` (R126). -/
def tileLayer (s : State) (y x : Nat) : Pixel :=
  s.paletteEntry (slotOf (Memory.read s.ram (0x400 + tileOffset (x / 8) (y / 8))))
    (s.tilePixel (Memory.read s.ram (tileOffset (x / 8) (y / 8))) (y % 8) (x % 8))

/-- What sprite slot `i` writes at row `y`, column `x`: nothing outside its 16 x 16 block or where its colour is the key (R134, R135). -/
def spriteLayer (s : State) (i y x : Nat) : Option Pixel :=
  if 0 ≤ x - spriteLeft s i ∧ x - spriteLeft s i ≤ 15 ∧ 0 ≤ y - spriteTop s i ∧ y - spriteTop s i ≤ 15 then
    let col := spriteColour s i (y - spriteTop s i).toNat (x - spriteLeft s i).toNat
    if col = keyColour s i then none else some col
  else none

/-! ### A frame's transactions -/

/-- The vector after the CPU span `is`: the value of its last `OUT 0`, or `v` if there is none (R116, R164). -/
def lastVector (v : Byte) : List Instr → Byte
  | [] => v
  | .out port val :: is => lastVector (if port = 0 then val else v) is
  | _ :: is => lastVector v is

/-- IE after the CPU span `is`: bit 0 of the last byte written at effective address 0x5000, or `b` if there is none (R28, R114, R165). -/
def lastEnable (b : Bool) : List Instr → Bool
  | [] => b
  | .wr8 addr val :: is => lastEnable (if ea addr = 0x5000 then bit0 val else b) is
  | .wr16 addr val :: is =>
    lastEnable (if ea addr = 0x5000 then decide (val.toNat % 2 = 1)
      else if ea (addr + 1) = 0x5000 then decide (val.toNat / 256 % 2 = 1) else b) is
  | _ :: is => lastEnable b is

end Sys2Proof.Spec

open Sys2Proof Sys2Proof.Machine

/-! ## Encoding -/

/-- Every well-formed transaction is what its word decodes to (R64 to R67). -/
def Obligations.DecodeOfEncodeIsTheTransaction : Prop :=
  ∀ i : Instr, i.wf = true → decodeWord (encode i) = .ok i

/-- A word that decodes is the word of the transaction it decodes to, which is well-formed: no word has a second spelling (R65, R69). -/
def Obligations.EncodeOfDecodeIsTheWord : Prop :=
  ∀ (w : TxnWord) (i : Instr), decodeWord w = .ok i → i.wf = true ∧ encode i = w

/-- Words of 95_test_vectors.md decode to their transactions: a sanity check of the fields' places (R64, R65, R66, R67). -/
def Obligations.WrittenWordsDecode : Prop :=
  decodeWord 0x1081230000 = .ok (.rd8 0x8123) ∧ decodeWord 0x2050000001 = .ok (.wr8 0x5000 0x01) ∧
  decodeWord 0x304FFF0000 = .ok (.rd16 0x4FFF) ∧ decodeWord 0x404FFFBEEF = .ok (.wr16 0x4FFF 0xBEEF) ∧
  decodeWord 0x5000000000 = .ok (.inp 0x00) ∧ decodeWord 0x60000000CF = .ok (.out 0x00 0xCF) ∧
  decodeWord 0x7400000000 = .ok (.keydn .coin1) ∧ decodeWord 0x8A00000000 = .ok (.keyup .credit) ∧
  decodeWord 0x9000000000 = .ok .compose ∧ decodeWord 0xA000000000 = .ok .irqchk ∧ decodeWord 0xB000000000 = .ok .decode

/-- R69, clause by clause: reserved OPs and non-zero must-be-zero fields are refused by name; unrecognised keys, ports other than 0, IN from any
port and unmapped addresses are legal. -/
def Obligations.ReservedIllegalAndIgnoredEncodings : Prop :=
  (∀ (s : State) (w : TxnWord) (rest : List TxnWord), s.pending = w :: rest →
    (Spec.op w = 0 ∨ 12 ≤ Spec.op w → step s = .refused (.reservedOp w)) ∧
    (Spec.reservedFieldSet w → step s = .refused (.nonzeroReservedField w))) ∧
  (∀ (s : State) (n : BitVec 4), s.phase = .run ∨ s.phase = .composed → 11 ≤ n.toNat →
    exec (.keydn (.unrecognised n)) s = .next { s with resp := .nothing } ∧
    exec (.keyup (.unrecognised n)) s = .next { s with resp := .nothing }) ∧
  (∀ s : State, s.phase = .run →
    (∀ port val : Byte, port ≠ 0 → exec (.out port val) s = .next { s with resp := .nothing }) ∧
    (∀ port : Byte, exec (.inp port) s = .next { s with resp := .byte 0x00 }) ∧
    (∀ (addr : Word) (b : Byte) (v : Word), 0x5100 ≤ Spec.ea addr →
      exec (.rd8 addr) s = .next { s with resp := .byte 0xFF } ∧ exec (.wr8 addr b) s = .next { s with resp := .nothing } ∧
      (∃ x, exec (.rd16 addr) s = .next { s with resp := .word x }) ∧ ∃ t, exec (.wr16 addr v) s = .next t))

/-! ## Steps, admission and refusal -/

/-- A step performs the oldest pending transaction when its word decodes, on the state that no longer holds it pending (the order of pending
transactions is the model's, log 1). -/
def Obligations.StepPerformsTheDecodedTransaction : Prop :=
  ∀ (s : State) (w : TxnWord) (rest : List TxnWord) (i : Instr), s.pending = w :: rest → decodeWord w = .ok i →
    step s = exec i { s with pending := rest }

/-- A word issued by `withFetchWord` is the one the next step performs, on the state it was issued in (the model's, log 1). -/
def Obligations.IssuedWordIsPerformedNext : Prop :=
  ∀ (s : State) (w : Nat) (i : Instr), decodeTableWord 40 w = some i → step (s.withFetchWord 40 w) = exec i s

/-- With no transaction pending a step changes nothing (the model's reading of R3, log 2). -/
def Obligations.IdleStepChangesNothing : Prop :=
  ∀ s : State, s.pending = [] → step s = .next s

/-- The admission table of R160, cell by cell: a refused transaction is refused with the table's code and records its word; a performed one gives
a next state in the table's phase. -/
def Obligations.AdmissionTableHolds : Prop :=
  ∀ (i : Instr) (s : State),
    (∀ c, Spec.admissionCode i s.phase = some c → ∃ r, exec i s = .refused r ∧ r.code = some c ∧ r.word = some (encode i)) ∧
    (Spec.admissionCode i s.phase = none →
      ∃ t, exec i s = .next t ∧
        match i with
        | .decode => t.phase = .run ∨ t.phase = .inactive
        | .compose => t.phase = .composed
        | .irqchk => t.phase = .run
        | _ => t.phase = s.phase)

/-- A step refuses a word exactly when one of the refusal codes of R144 applies to it, and then reports the lowest that applies, with the word
(R149). -/
def Obligations.StepReportsTheLowestRefusal : Prop :=
  ∀ (s : State) (w : TxnWord) (rest : List TxnWord), s.pending = w :: rest →
    ((∃ c, Spec.refusalApplies w s.phase c) ↔ ∃ r, step s = .refused r) ∧
    ∀ r, step s = .refused r →
      r.word = some w ∧ ∃ c, r.code = some c ∧ Spec.refusalApplies w s.phase c ∧ ∀ c', Spec.refusalApplies w s.phase c' → c ≤ c'

/-! ## Construction and invariants -/

/-- The values at construction (R42), for all parameters. The polarities behind IN0 and IN1 at 0xFF the spec marks as its own decision from general
knowledge (G2; log 13). -/
def Obligations.ConstructionValues : Prop :=
  ∀ p : Params,
    (State.construct p).phase = .unloaded ∧ (State.construct p).ram = p.initRam ∧ (State.construct p).ie = false ∧
    (State.construct p).se = false ∧ (State.construct p).flip = false ∧ (State.construct p).sprpos = p.initSprpos ∧
    (State.construct p).vec = 0x00 ∧ (State.construct p).in0 = 0xFF ∧ (State.construct p).in1 = 0xFF ∧
    (State.construct p).dip = p.dip

/-- The invariant holds at construction for all parameters of the right form, and at reset. It rests on the model's choices that memory is canonical
data (log 10), that the program ROM is 0x00 before DECODE (log 6; R24 gives it no value then) and, for reset, that INIT_RAM is all 0x00 (log 4).
The value of IN1, and which of its bits no key drives, the spec marks as its own decision from general knowledge (G1, G2; log 13). -/
def Obligations.ConstructionMeetsTheInvariant : Prop :=
  (∀ p : Params, Params.wf p → Inv (State.construct p)) ∧ Inv State.reset

/-- Every step keeps the invariant: the memories stay canonical and in their sizes, the bits of IN1 that no key drives stay 1, the palettes and
the composed frame stay opaque (R24, R25, R34, R77, R130; the canonical form is the model's, log 10; which bits of IN1 no key drives the spec
marks as its own decision from general knowledge, log 13). -/
def Obligations.StepKeepsTheInvariant : Prop :=
  ∀ s t : State, Inv s → step s = .next t → Inv t

/-- Along every run the program ROM and the decoded tables keep their values once the ROMs are loaded, and the DIP byte and the two parameters keep
theirs from the start (R24, R35, R36, R37, R38). -/
def Obligations.RunsNeverMutateTheTables : Prop :=
  ∀ (n : Nat) (s t : State), Host.Core.run Sys2Proof.core n s = .next t →
    t.dip = s.dip ∧ t.roms = s.roms ∧ t.tkey = s.tkey ∧
    (s.phase ≠ .unloaded → t.phase ≠ .unloaded ∧ t.prog = s.prog ∧ t.tile = s.tile ∧ t.sprite = s.sprite ∧ t.pal = s.pal)

/-- Each field is written only by its own transactions; the input latches only by key events, never by the CPU core (R123). -/
def Obligations.FieldsAreWrittenOnlyByTheirTransactions : Prop :=
  ∀ (i : Instr) (s t : State), exec i s = .next t →
    (t.in0 ≠ s.in0 ∨ t.in1 ≠ s.in1 → ∃ key, i = .keydn key ∨ i = .keyup key) ∧
    (t.ram ≠ s.ram ∨ t.ie ≠ s.ie ∨ t.se ≠ s.se ∨ t.flip ≠ s.flip ∨ t.sprpos ≠ s.sprpos →
      ∃ addr, (∃ v, i = .wr8 addr v) ∨ ∃ v, i = .wr16 addr v) ∧
    (t.vec ≠ s.vec → i = .out 0 t.vec) ∧
    (t.fb ≠ s.fb → i = .compose) ∧
    (t.prog ≠ s.prog ∨ t.tile ≠ s.tile ∨ t.sprite ≠ s.sprite ∨ t.pal ≠ s.pal → i = .decode) ∧
    (t.phase ≠ s.phase → i = .compose ∨ i = .irqchk ∨ i = .decode) ∧
    t.dip = s.dip ∧ t.roms = s.roms ∧ t.tkey = s.tkey ∧ t.pending = s.pending

/-! ## Bus -/

/-- RD8 returns the byte of the memory map and changes nothing else; its word (R96 to R103, R56). The sub-ranges of the register block the spec marks
as its own decision from general knowledge (R81; log 13). -/
def Obligations.ByteReadFollowsTheMap : Prop :=
  ∀ (s : State) (addr : Word), s.phase = .run →
    encode (.rd8 addr) = Spec.word 0x1 0 addr.toNat 0 ∧ exec (.rd8 addr) s = .next { s with resp := .byte (Spec.readByte s addr) }

/-- Bit 15 of a bus address is ignored, by every bus access (R44). -/
def Obligations.HighAddressBitIsIgnored : Prop :=
  ∀ (s : State) (addr : Word) (b : Byte) (v : Word), s.phase = .run →
    exec (.rd8 (addr ||| 0x8000)) s = exec (.rd8 addr) s ∧ exec (.wr8 (addr ||| 0x8000) b) s = exec (.wr8 addr b) s ∧
    exec (.rd16 (addr ||| 0x8000)) s = exec (.rd16 addr) s ∧ exec (.wr16 (addr ||| 0x8000) v) s = exec (.wr16 addr v) s

/-- WR8 writes the one field its address names, and nothing else; its word (R104 to R112). The addresses of IE, SE, FLIP and the sprite positions the
spec marks as its own decision from general knowledge (R82; log 13). -/
def Obligations.ByteWriteFollowsTheMap : Prop :=
  ∀ (s : State) (addr : Word) (v : Byte), s.phase = .run → Memory.wf 0x1000 s.ram = true →
    encode (.wr8 addr v) = Spec.word 0x2 0 addr.toNat v.toNat ∧
    ∃ t, exec (.wr8 addr v) s = .next t ∧
      (∀ o, Memory.read t.ram o =
        if 0x4000 ≤ Spec.ea addr ∧ Spec.ea addr < 0x5000 ∧ o = Spec.ea addr - 0x4000 then v else Memory.read s.ram o) ∧
      t.ie = (if Spec.ea addr = 0x5000 then Spec.bit0 v else s.ie) ∧
      t.se = (if Spec.ea addr = 0x5001 then Spec.bit0 v else s.se) ∧
      t.flip = (if Spec.ea addr = 0x5003 then Spec.bit0 v else s.flip) ∧
      (∀ (k : Nat) (hk : k < 16), t.sprpos[k] = if Spec.ea addr = 0x5060 + k then v else s.sprpos[k]) ∧
      t = { s with ram := t.ram, ie := t.ie, se := t.se, flip := t.flip, sprpos := t.sprpos, resp := .nothing }

/-- A byte written to RAM reads back, and no other bus address reads differently after it (R106, R57; R57 is marked derived). -/
def Obligations.RamWriteReadsBack : Prop :=
  ∀ (s : State) (addr : Word) (v : Byte), s.phase = .run → Memory.wf 0x1000 s.ram = true →
    0x4000 ≤ Spec.ea addr → Spec.ea addr < 0x5000 →
    ∃ t, exec (.wr8 addr v) s = .next t ∧ exec (.rd8 addr) t = .next { t with resp := .byte v } ∧
      ∀ other : Word, Spec.ea other ≠ Spec.ea addr →
        ∃ b, exec (.rd8 other) s = .next { s with resp := .byte b } ∧ exec (.rd8 other) t = .next { t with resp := .byte b }

/-- Writing a byte twice to one address leaves what writing it once does (R57, which the spec marks derived). -/
def Obligations.ByteWriteTwiceIsOnce : Prop :=
  ∀ (s : State) (addr : Word) (v : Byte), s.phase = .run → Memory.wf 0x1000 s.ram = true →
    ∃ t, exec (.wr8 addr v) s = .next t ∧ exec (.wr8 addr v) t = .next t

/-- RD16 is two byte reads, the lower address in bits 7:0, the second address modulo 2^16; its word (R113, R49). -/
def Obligations.WordReadIsTwoByteReads : Prop :=
  ∀ (s : State) (addr : Word), s.phase = .run →
    encode (.rd16 addr) = Spec.word 0x3 0 addr.toNat 0 ∧
    ∃ lo hi : Byte, exec (.rd8 addr) s = .next { s with resp := .byte lo } ∧
      exec (.rd8 (BitVec.ofNat 16 ((addr.toNat + 1) % 0x10000))) s = .next { s with resp := .byte hi } ∧
      exec (.rd16 addr) s = .next { s with resp := .word (BitVec.ofNat 16 (hi.toNat * 256 + lo.toNat)) }

/-- WR16 is two byte writes: the low byte at the address, then the high byte at the next one modulo 2^16; its word
(R114). -/
def Obligations.WordWriteIsTwoByteWrites : Prop :=
  ∀ (s : State) (addr v : Word), s.phase = .run →
    encode (.wr16 addr v) = Spec.word 0x4 0 addr.toNat v.toNat ∧
    ∃ t u, exec (.wr8 addr (BitVec.ofNat 8 (v.toNat % 256))) s = .next t ∧
      exec (.wr8 (BitVec.ofNat 16 ((addr.toNat + 1) % 0x10000)) (BitVec.ofNat 8 (v.toNat / 256))) t = .next u ∧
      exec (.wr16 addr v) s = .next u

/-- The order of the two byte writes of WR16 cannot be observed: the other order ends in the same state (R114's corner case, D8). -/
def Obligations.WordWriteOrderIsUnobservable : Prop :=
  ∀ (s : State) (addr v : Word), s.phase = .run → Memory.wf 0x1000 s.ram = true →
    ∃ t u, exec (.wr8 (BitVec.ofNat 16 ((addr.toNat + 1) % 0x10000)) (BitVec.ofNat 8 (v.toNat / 256))) s = .next t ∧
      exec (.wr8 addr (BitVec.ofNat 8 (v.toNat % 256))) t = .next u ∧
      exec (.wr16 addr v) s = .next u

/-- IN returns 0 on every port and changes nothing else; its word (R115). -/
def Obligations.PortInputReturnsZero : Prop :=
  ∀ (s : State) (port : Byte), s.phase = .run →
    encode (.inp port) = Spec.word 0x5 0 port.toNat 0 ∧ exec (.inp port) s = .next { s with resp := .byte 0x00 }

/-- OUT to port 0 latches the vector; to another port it does nothing; its word (R116). -/
def Obligations.PortOutputLatchesTheVector : Prop :=
  ∀ (s : State) (port val : Byte), s.phase = .run →
    encode (.out port val) = Spec.word 0x6 0 port.toNat val.toNat ∧
    exec (.out port val) s = .next { s with vec := if port = 0 then val else s.vec, resp := .nothing }

/-! ## Input latches -/

/-- KEYDN clears a momentary button's bit; toggles and unrecognised keys do nothing (R119). Which bit a key owns is R118's table, which the spec
marks as its own decision from general knowledge (log 13). -/
def Obligations.KeyDownPressesTheButton : Prop :=
  ∀ (s : State) (key : Key), s.phase = .run ∨ s.phase = .composed →
    exec (.keydn key) s =
      .next { s with in0 := s.in0 &&& Spec.in0Mask key, in1 := s.in1 &&& Spec.in1Mask key, resp := .nothing }

/-- KEYUP sets a momentary button's bit and flips a toggle's; unrecognised keys do nothing (R120). Which bit a key owns is R118's table, which the
spec marks as its own decision from general knowledge (log 13). -/
def Obligations.KeyUpReleasesOrToggles : Prop :=
  ∀ (s : State) (key : Key), s.phase = .run ∨ s.phase = .composed →
    exec (.keyup key) s =
      .next { s with
        in0 := (s.in0 ||| ~~~Spec.in0Mask key) ^^^ Spec.in0Flip key
        in1 := (s.in1 ||| ~~~Spec.in1Mask key) ^^^ Spec.in1Flip key
        resp := .nothing }

/-- A key-down repeated changes nothing, and two key-ups of a toggle return it to its previous value (R119's and R120's corner cases). -/
def Obligations.RepeatedKeyEvents : Prop :=
  ∀ (s : State) (key : Key), s.phase = .run ∨ s.phase = .composed →
    (∃ t, exec (.keydn key) s = .next t ∧ exec (.keydn key) t = .next t) ∧
    (key = .service ∨ key = .test →
      ∃ t, exec (.keyup key) s = .next t ∧ (t.in0 ≠ s.in0 ∨ t.in1 ≠ s.in1) ∧ exec (.keyup key) t = .next { s with resp := .nothing })

/-! ## Frame composer -/

/-- COMPOSE leaves what the pixel-by-pixel loops of R126 to R135 leave, run in the order of R124 on the old framebuffer. That the model paints draw
lists instead is log 16. The RAM offsets and the layout of R126 to R129 the spec marks as its own decision from general knowledge (log 13). -/
def Obligations.ComposeRunsThePixelLoops : Prop :=
  ∀ s : State, s.phase = .run →
    exec .compose s = .next { s with fb := Spec.composeLoops s, phase := .composed, resp := .nothing }

/-- COMPOSE reads only the tile plane, the palette plane, the sprite attribute table, the sprite positions, the decoded tables and the
transparency parameter (R125, R135): states that agree on these compose the same frame, whatever else they hold, the old framebuffer included. The
planes' offsets 0x000 to 0x7FF the spec marks as its own decision from general knowledge (R26, R126; log 13). -/
def Obligations.ComposeReadsOnlyItsInputs : Prop :=
  ∀ s t : State, s.phase = .run → t.phase = .run →
    (∀ o, o < 0x800 → Memory.read s.ram o = Memory.read t.ram o) →
    (∀ o, 0xFF0 ≤ o → o < 0x1000 → Memory.read s.ram o = Memory.read t.ram o) →
    s.sprpos = t.sprpos → s.tile = t.tile → s.sprite = t.sprite → s.pal = t.pal → s.tkey = t.tkey →
    ∃ f, exec .compose s = .next { s with fb := f, phase := .composed, resp := .nothing } ∧
      exec .compose t = .next { t with fb := f, phase := .composed, resp := .nothing }

/-- Every pixel of a composed frame is the colour of the lowest-numbered sprite slot that writes there, or the tile layer's where none does (R131;
the layers by R126 to R129 and R133 to R136, whose offsets the spec marks as its own, log 13). -/
def Obligations.LowestSpriteSlotIsOnTop : Prop :=
  ∀ s : State, s.phase = .run →
    ∃ t, exec .compose s = .next t ∧
      ∀ y x, y < 288 → x < 224 →
        gridGet t.fb 0 y x = ((List.range 8).findSome? fun i => Spec.spriteLayer s i y x).getD (Spec.tileLayer s y x)

/-- The tile pass draws every pixel of the frame exactly once (R130, which the spec marks derived). -/
def Obligations.TilePassDrawsEachPixelOnce : Prop :=
  ∀ (s : State) (y x : Nat), y < 288 → x < 224 →
    ((tilePassBottom s ++ tilePassMain s ++ tilePassTop s).filter fun d => (d.at y x).isSome).length = 1

/-- The translated position is `239 - posX`, `272 - posY`; rows are never clipped; columns are clipped exactly for posX at most 30 or at least 240;
posX 0 and 255 leave no column on screen (R133; R136, which the spec marks derived). -/
def Obligations.SpritePositionAndClipping : Prop :=
  ∀ posX posY : Byte,
    spriteX posX = 239 - (posX.toNat : Int) ∧ spriteY posY = 272 - (posY.toNat : Int) ∧
    17 ≤ spriteY posY ∧ spriteY posY + 15 ≤ 287 ∧
    (224 ≤ spriteX posX + 15 ↔ posX.toNat ≤ 30) ∧ (spriteX posX ≤ -1 ↔ 240 ≤ posX.toNat) ∧
    (posX = 0 ∨ posX = 255 → ∀ c : Nat, c ≤ 15 → ¬ (0 ≤ spriteX posX + c ∧ spriteX posX + c ≤ 223))

/-- A sprite at X position 0 or 255 is not seen: its code and palette bytes can be anything (R136, which the spec marks derived). -/
def Obligations.OffScreenSpriteIsNotDrawn : Prop :=
  ∀ (s : State) (i : Nat) (code pal : Byte), s.phase = .run → Memory.wf 0x1000 s.ram = true → i < 8 →
    s.sprpos[2 * i]? = some 0 ∨ s.sprpos[2 * i]? = some 255 →
    ∃ f, exec .compose s = .next { s with fb := f, phase := .composed, resp := .nothing } ∧
      exec .compose ((s.setRam (0xFF0 + 2 * i) code).setRam (0xFF1 + 2 * i) pal) =
        .next { (s.setRam (0xFF0 + 2 * i) code).setRam (0xFF1 + 2 * i) pal with fb := f, phase := .composed, resp := .nothing }

/-- The bytes handed to the sink: 258048 of them; pixel (x, y) at offset `4*(y*224 + x)`, alpha, blue, green, red; of a composed frame every alpha
is 0xFF (R138, whose byte count the spec marks derived). -/
def Obligations.OutputBytesFollowTheContract : Prop :=
  (∀ f : Framebuffer, (framebufferBytes f).length = 258048 ∧
    ∀ y x k, y < 288 → x < 224 → k < 4 →
      (framebufferBytes f)[4 * (y * 224 + x) + k]? = some (BitVec.ofNat 8 ((gridGet f 0 y x).toNat / 256 ^ k))) ∧
  ∀ s : State, Inv s → s.phase = .composed → ∀ y x, y < 288 → x < 224 → (framebufferBytes s.fb)[4 * (y * 224 + x)]? = some 0xFF

/-! ## Interrupt line -/

/-- IRQCHK hands over one request carrying the latched vector if IE is set and none otherwise; IE and the vector stay; the phase becomes RUN
(R140). Out of phase it is refused: in RUN and UNLOADED as out of phase (R140), in INACTIVE as inactive (R160). -/
def Obligations.IrqCheckRequestsWhenEnabled : Prop :=
  encode .irqchk = Spec.word 0xA 0 0 0 ∧
  (∀ s : State, s.phase = .composed →
    exec .irqchk s = .next { s with phase := .run, resp := if s.ie then .irqRequest s.vec else .nothing }) ∧
  ∀ s : State, s.phase ≠ .composed →
    exec .irqchk s = .refused (if s.phase = .inactive then .inactive (encode .irqchk) else .irqCheckOutOfPhase (encode .irqchk))

/-- A request is made by IRQCHK only, once a COMPOSE, with IE set, carrying the latched vector (R141, which the spec marks derived). -/
def Obligations.OnlyIrqCheckRequests : Prop :=
  ∀ (i : Instr) (s t : State) (v : Byte), exec i s = .next t → t.resp = .irqRequest v →
    i = .irqchk ∧ s.phase = .composed ∧ t.phase = .run ∧ s.ie = true ∧ v = s.vec

/-- A frame (R161) is performed to a defined end of a run (R162), in phase RUN, and makes one request if and only if the span's last write of IE
enabled it, carrying the vector the span latched last (R141, R164, R165; R141, R161 and R165 the spec marks derived; the ends are log 18). IE's
address 0x5000 the spec marks as its own decision from general knowledge (R82; log 13). -/
def Obligations.FrameRequestsWithTheSpansLastValues : Prop :=
  ∀ (s : State) (span keys : List Instr), s.phase = .run →
    (∀ i ∈ span, inSpan i = true) → (∀ i ∈ keys, isKey i = true) →
    ∃ t, performAll (span ++ [.compose] ++ keys ++ [.irqchk]) s = .next t ∧ t.phase = .run ∧ definedEnd .irqchk t = true ∧
      t.resp = if Spec.lastEnable s.ie span then .irqRequest (Spec.lastVector s.vec span) else .nothing

/-! ## ROM decoder -/

/-- DECODE of eight good images: phase RUN, the four chunks at 0x0000, 0x1000, 0x2000, 0x3000 of the program ROM, and nothing written but the
program ROM, the tables and the phase (R84, R24). -/
def Obligations.DecodeLoadsTheProgramRom : Prop :=
  ∀ (s : State) (p0 p1 p2 p3 col pal til spr : List Byte), s.phase = .unloaded →
    Spec.GoodImages s.roms p0 p1 p2 p3 col pal til spr →
    ∃ t, exec .decode s = .next t ∧ t.phase = .run ∧
      (∀ j, j < 4096 →
        Memory.read t.prog j = p0.getD j 0 ∧ Memory.read t.prog (0x1000 + j) = p1.getD j 0 ∧
        Memory.read t.prog (0x2000 + j) = p2.getD j 0 ∧ Memory.read t.prog (0x3000 + j) = p3.getD j 0) ∧
      t = { s with phase := .run, prog := t.prog, tile := t.tile, sprite := t.sprite, pal := t.pal, resp := .nothing }

/-- DECODE fills the tile table: a tile's first eight bytes are its rows 4 to 7 and the next eight its rows 0 to 3, columns reversed (R90). Which
bits of a byte are which pixel (R72) the spec marks as its own decision from general knowledge (log 13). -/
def Obligations.DecodeFillsTheTileTable : Prop :=
  ∀ (s : State) (p0 p1 p2 p3 col pal til spr : List Byte), s.phase = .unloaded →
    Spec.GoodImages s.roms p0 p1 p2 p3 col pal til spr →
    ∃ u, exec .decode s = .next u ∧
      ∀ (n : Byte) (r c : Nat), r < 8 → c < 8 →
        (u.tilePixel n r c).toNat =
          Spec.stripIndex (til.getD (16 * n.toNat + (if r < 4 then 8 else 0) + (7 - c)) 0) (r % 4)

/-- DECODE fills the sprite table by the strip table of R74: strips 0 to 3 are rows 12, 0, 4, 8 of the right half, 4 to 7 the same rows of the
left half (R91). The spec marks the table, and R72's bits, as its own decision from general knowledge (log 13). -/
def Obligations.DecodeFillsTheSpriteTable : Prop :=
  ∀ (s : State) (p0 p1 p2 p3 col pal til spr : List Byte), s.phase = .unloaded →
    Spec.GoodImages s.roms p0 p1 p2 p3 col pal til spr →
    ∃ u, exec .decode s = .next u ∧
      ∀ (n : BitVec 6) (r c : Nat), r < 16 → c < 16 →
        (u.spritePixel n r c).toNat =
          Spec.stripIndex (spr.getD (64 * n.toNat + 8 * ((r / 4 + 1) % 4 + (if c < 8 then 4 else 0)) + (7 - c % 8)) 0) (r % 4)

/-- DECODE fills the palette table: slot p, index k is the colour-ROM byte chosen by the low nibble of palette-ROM byte 4p + k, as an opaque word
(R92, R93, R76, R77). The offset 4p + k (R75) the spec marks as its own decision from general knowledge (log 13). -/
def Obligations.DecodeFillsThePaletteTable : Prop :=
  ∀ (s : State) (p0 p1 p2 p3 col pal til spr : List Byte), s.phase = .unloaded →
    Spec.GoodImages s.roms p0 p1 p2 p3 col pal til spr →
    ∃ u, exec .decode s = .next u ∧
      ∀ (p : BitVec 5) (k : PixelIndex),
        (u.paletteEntry p k).toNat = Spec.colourWord (col.getD ((pal.getD (4 * p.toNat + k.toNat) 0).toNat % 16) 0)

/-- Colour decode is the packed word of the three weighted sums, none of which exceeds 8 bits (R93, R76, R77). -/
def Obligations.ColourDecodeIsExact : Prop :=
  ∀ c : Byte, (colour c).toNat = Spec.colourWord c ∧ Spec.channelR c ≤ 255 ∧ Spec.channelG c ≤ 255 ∧ Spec.channelB c ≤ 255

/-- Strip decode writes the 32 pixels of its block from its eight bytes, columns reversed, and no other pixel (R88). Which bits are which pixel the
spec marks as its own decision from general knowledge (log 13). -/
def Obligations.StripDecodeWritesItsBlock : Prop :=
  ∀ (w h : Nat) (img : Grid PixelIndex w h) (b : Nat → Byte) (bx by0 : Nat), bx + 8 ≤ w → by0 + 4 ≤ h →
    ∀ y x, y < h → x < w →
      (by0 ≤ y → y < by0 + 4 → bx ≤ x → x < bx + 8 →
        (gridGet (strip img b bx by0) 0 y x).toNat = Spec.stripIndex (b (7 - (x - bx))) (y - by0)) ∧
      (¬ (by0 ≤ y ∧ y < by0 + 4 ∧ bx ≤ x ∧ x < bx + 8) → gridGet (strip img b bx by0) 0 y x = gridGet img 0 y x)

/-- A load with a missing or short image: every failing image is reported, the phase is INACTIVE, nothing else is written, and every later
transaction is refused as inactive (R85, R145). -/
def Obligations.LoadFailureMakesItInactive : Prop :=
  ∀ s : State, s.phase = .unloaded → (∃ x, Spec.missingOrShort s.roms x) →
    ∃ failing : List RomName,
      exec .decode s = .next { s with phase := .inactive, resp := .loadFailures failing } ∧
      (∀ x, x ∈ failing ↔ Spec.missingOrShort s.roms x) ∧ failing.Nodup ∧
      ∀ i : Instr, exec i { s with phase := .inactive, resp := .loadFailures failing } = .refused (.inactive (encode i))

/-- An image longer than its size is accepted and only its first bytes are read: the same load of the images cut to their sizes gives the same
state but for the images themselves; a short image fails (R86). -/
def Obligations.OverlongImagesUseTheirPrefix : Prop :=
  ∀ s : State, s.phase = .unloaded →
    (∀ p0 p1 p2 p3 col pal til spr : List Byte, Spec.GoodImages s.roms p0 p1 p2 p3 col pal til spr →
      ∃ t, exec .decode s = .next t ∧ t.phase = .run ∧
        exec .decode { s with roms := ⟨some (p0.take 4096), some (p1.take 4096), some (p2.take 4096), some (p3.take 4096),
            some (col.take 32), some (pal.take 256), some (til.take 4096), some (spr.take 4096)⟩ } =
          .next { t with roms := ⟨some (p0.take 4096), some (p1.take 4096), some (p2.take 4096), some (p3.take 4096),
            some (col.take 32), some (pal.take 256), some (til.take 4096), some (spr.take 4096)⟩ }) ∧
    ((∃ x, Spec.missingOrShort s.roms x) → ∃ t, exec .decode s = .next t ∧ t.phase = .inactive)

/-! ## Pseudo-transactions -/

/-- The expansion of SPRITE, performed in a CPU span, leaves slot i with the sprite number, flips, palette slot and position its bytes give
(R71, R78, R79). The sprite positions' addresses the spec marks as its own decision from general knowledge (R82; log 13). -/
def Obligations.SpritePseudoSetsTheSlot : Prop :=
  ∀ (s : State) (i : Fin 8) (code pal x y : Byte), s.phase = .run → Memory.wf 0x1000 s.ram = true →
    ∃ t, performAll (Pseudo.sprite i code pal x y).expand s = .next t ∧ t.phase = .run ∧
      fetchSprite t i.val =
        { number := BitVec.ofNat 6 (code.toNat / 4)
          hflip := code.getLsbD 1
          vflip := code.getLsbD 0
          slot := BitVec.ofNat 5 (pal.toNat % 32)
          posX := x
          posY := y }
end

