-- ==== Sys2Proof/Laws/State.lean ====
section
/-! SUPPORT. What each update of the state does to each field: one lemma a field and update, true by rfl, so that no proof unfolds an update. -/

namespace Sys2Proof.Machine

variable (s : State)

/-! ## reply -/

@[simp] theorem State.reply_phase (r : Response) : (s.reply r).phase = s.phase := rfl
@[simp] theorem State.reply_prog (r : Response) : (s.reply r).prog = s.prog := rfl
@[simp] theorem State.reply_ram (r : Response) : (s.reply r).ram = s.ram := rfl
@[simp] theorem State.reply_ie (r : Response) : (s.reply r).ie = s.ie := rfl
@[simp] theorem State.reply_se (r : Response) : (s.reply r).se = s.se := rfl
@[simp] theorem State.reply_flip (r : Response) : (s.reply r).flip = s.flip := rfl
@[simp] theorem State.reply_sprpos (r : Response) : (s.reply r).sprpos = s.sprpos := rfl
@[simp] theorem State.reply_vec (r : Response) : (s.reply r).vec = s.vec := rfl
@[simp] theorem State.reply_in0 (r : Response) : (s.reply r).in0 = s.in0 := rfl
@[simp] theorem State.reply_in1 (r : Response) : (s.reply r).in1 = s.in1 := rfl
@[simp] theorem State.reply_dip (r : Response) : (s.reply r).dip = s.dip := rfl
@[simp] theorem State.reply_tile (r : Response) : (s.reply r).tile = s.tile := rfl
@[simp] theorem State.reply_sprite (r : Response) : (s.reply r).sprite = s.sprite := rfl
@[simp] theorem State.reply_pal (r : Response) : (s.reply r).pal = s.pal := rfl
@[simp] theorem State.reply_fb (r : Response) : (s.reply r).fb = s.fb := rfl
@[simp] theorem State.reply_roms (r : Response) : (s.reply r).roms = s.roms := rfl
@[simp] theorem State.reply_tkey (r : Response) : (s.reply r).tkey = s.tkey := rfl
@[simp] theorem State.reply_pending (r : Response) : (s.reply r).pending = s.pending := rfl
@[simp] theorem State.reply_resp (r : Response) : (s.reply r).resp = r := rfl

/-! ## enter -/

@[simp] theorem State.enter_phase (p : Phase) : (s.enter p).phase = p := rfl
@[simp] theorem State.enter_prog (p : Phase) : (s.enter p).prog = s.prog := rfl
@[simp] theorem State.enter_ram (p : Phase) : (s.enter p).ram = s.ram := rfl
@[simp] theorem State.enter_ie (p : Phase) : (s.enter p).ie = s.ie := rfl
@[simp] theorem State.enter_se (p : Phase) : (s.enter p).se = s.se := rfl
@[simp] theorem State.enter_flip (p : Phase) : (s.enter p).flip = s.flip := rfl
@[simp] theorem State.enter_sprpos (p : Phase) : (s.enter p).sprpos = s.sprpos := rfl
@[simp] theorem State.enter_vec (p : Phase) : (s.enter p).vec = s.vec := rfl
@[simp] theorem State.enter_in0 (p : Phase) : (s.enter p).in0 = s.in0 := rfl
@[simp] theorem State.enter_in1 (p : Phase) : (s.enter p).in1 = s.in1 := rfl
@[simp] theorem State.enter_dip (p : Phase) : (s.enter p).dip = s.dip := rfl
@[simp] theorem State.enter_tile (p : Phase) : (s.enter p).tile = s.tile := rfl
@[simp] theorem State.enter_sprite (p : Phase) : (s.enter p).sprite = s.sprite := rfl
@[simp] theorem State.enter_pal (p : Phase) : (s.enter p).pal = s.pal := rfl
@[simp] theorem State.enter_fb (p : Phase) : (s.enter p).fb = s.fb := rfl
@[simp] theorem State.enter_roms (p : Phase) : (s.enter p).roms = s.roms := rfl
@[simp] theorem State.enter_tkey (p : Phase) : (s.enter p).tkey = s.tkey := rfl
@[simp] theorem State.enter_pending (p : Phase) : (s.enter p).pending = s.pending := rfl
@[simp] theorem State.enter_resp (p : Phase) : (s.enter p).resp = s.resp := rfl

/-! ## setRam -/

@[simp] theorem State.setRam_phase (o : Nat) (v : Byte) : (s.setRam o v).phase = s.phase := rfl
@[simp] theorem State.setRam_prog (o : Nat) (v : Byte) : (s.setRam o v).prog = s.prog := rfl
@[simp] theorem State.setRam_ram (o : Nat) (v : Byte) : (s.setRam o v).ram = Memory.write s.ram o v := rfl
@[simp] theorem State.setRam_ie (o : Nat) (v : Byte) : (s.setRam o v).ie = s.ie := rfl
@[simp] theorem State.setRam_se (o : Nat) (v : Byte) : (s.setRam o v).se = s.se := rfl
@[simp] theorem State.setRam_flip (o : Nat) (v : Byte) : (s.setRam o v).flip = s.flip := rfl
@[simp] theorem State.setRam_sprpos (o : Nat) (v : Byte) : (s.setRam o v).sprpos = s.sprpos := rfl
@[simp] theorem State.setRam_vec (o : Nat) (v : Byte) : (s.setRam o v).vec = s.vec := rfl
@[simp] theorem State.setRam_in0 (o : Nat) (v : Byte) : (s.setRam o v).in0 = s.in0 := rfl
@[simp] theorem State.setRam_in1 (o : Nat) (v : Byte) : (s.setRam o v).in1 = s.in1 := rfl
@[simp] theorem State.setRam_dip (o : Nat) (v : Byte) : (s.setRam o v).dip = s.dip := rfl
@[simp] theorem State.setRam_tile (o : Nat) (v : Byte) : (s.setRam o v).tile = s.tile := rfl
@[simp] theorem State.setRam_sprite (o : Nat) (v : Byte) : (s.setRam o v).sprite = s.sprite := rfl
@[simp] theorem State.setRam_pal (o : Nat) (v : Byte) : (s.setRam o v).pal = s.pal := rfl
@[simp] theorem State.setRam_fb (o : Nat) (v : Byte) : (s.setRam o v).fb = s.fb := rfl
@[simp] theorem State.setRam_roms (o : Nat) (v : Byte) : (s.setRam o v).roms = s.roms := rfl
@[simp] theorem State.setRam_tkey (o : Nat) (v : Byte) : (s.setRam o v).tkey = s.tkey := rfl
@[simp] theorem State.setRam_pending (o : Nat) (v : Byte) : (s.setRam o v).pending = s.pending := rfl
@[simp] theorem State.setRam_resp (o : Nat) (v : Byte) : (s.setRam o v).resp = s.resp := rfl

/-! ## setIe -/

@[simp] theorem State.setIe_phase (b : Bool) : (s.setIe b).phase = s.phase := rfl
@[simp] theorem State.setIe_prog (b : Bool) : (s.setIe b).prog = s.prog := rfl
@[simp] theorem State.setIe_ram (b : Bool) : (s.setIe b).ram = s.ram := rfl
@[simp] theorem State.setIe_ie (b : Bool) : (s.setIe b).ie = b := rfl
@[simp] theorem State.setIe_se (b : Bool) : (s.setIe b).se = s.se := rfl
@[simp] theorem State.setIe_flip (b : Bool) : (s.setIe b).flip = s.flip := rfl
@[simp] theorem State.setIe_sprpos (b : Bool) : (s.setIe b).sprpos = s.sprpos := rfl
@[simp] theorem State.setIe_vec (b : Bool) : (s.setIe b).vec = s.vec := rfl
@[simp] theorem State.setIe_in0 (b : Bool) : (s.setIe b).in0 = s.in0 := rfl
@[simp] theorem State.setIe_in1 (b : Bool) : (s.setIe b).in1 = s.in1 := rfl
@[simp] theorem State.setIe_dip (b : Bool) : (s.setIe b).dip = s.dip := rfl
@[simp] theorem State.setIe_tile (b : Bool) : (s.setIe b).tile = s.tile := rfl
@[simp] theorem State.setIe_sprite (b : Bool) : (s.setIe b).sprite = s.sprite := rfl
@[simp] theorem State.setIe_pal (b : Bool) : (s.setIe b).pal = s.pal := rfl
@[simp] theorem State.setIe_fb (b : Bool) : (s.setIe b).fb = s.fb := rfl
@[simp] theorem State.setIe_roms (b : Bool) : (s.setIe b).roms = s.roms := rfl
@[simp] theorem State.setIe_tkey (b : Bool) : (s.setIe b).tkey = s.tkey := rfl
@[simp] theorem State.setIe_pending (b : Bool) : (s.setIe b).pending = s.pending := rfl
@[simp] theorem State.setIe_resp (b : Bool) : (s.setIe b).resp = s.resp := rfl

/-! ## setSe -/

@[simp] theorem State.setSe_phase (b : Bool) : (s.setSe b).phase = s.phase := rfl
@[simp] theorem State.setSe_prog (b : Bool) : (s.setSe b).prog = s.prog := rfl
@[simp] theorem State.setSe_ram (b : Bool) : (s.setSe b).ram = s.ram := rfl
@[simp] theorem State.setSe_ie (b : Bool) : (s.setSe b).ie = s.ie := rfl
@[simp] theorem State.setSe_se (b : Bool) : (s.setSe b).se = b := rfl
@[simp] theorem State.setSe_flip (b : Bool) : (s.setSe b).flip = s.flip := rfl
@[simp] theorem State.setSe_sprpos (b : Bool) : (s.setSe b).sprpos = s.sprpos := rfl
@[simp] theorem State.setSe_vec (b : Bool) : (s.setSe b).vec = s.vec := rfl
@[simp] theorem State.setSe_in0 (b : Bool) : (s.setSe b).in0 = s.in0 := rfl
@[simp] theorem State.setSe_in1 (b : Bool) : (s.setSe b).in1 = s.in1 := rfl
@[simp] theorem State.setSe_dip (b : Bool) : (s.setSe b).dip = s.dip := rfl
@[simp] theorem State.setSe_tile (b : Bool) : (s.setSe b).tile = s.tile := rfl
@[simp] theorem State.setSe_sprite (b : Bool) : (s.setSe b).sprite = s.sprite := rfl
@[simp] theorem State.setSe_pal (b : Bool) : (s.setSe b).pal = s.pal := rfl
@[simp] theorem State.setSe_fb (b : Bool) : (s.setSe b).fb = s.fb := rfl
@[simp] theorem State.setSe_roms (b : Bool) : (s.setSe b).roms = s.roms := rfl
@[simp] theorem State.setSe_tkey (b : Bool) : (s.setSe b).tkey = s.tkey := rfl
@[simp] theorem State.setSe_pending (b : Bool) : (s.setSe b).pending = s.pending := rfl
@[simp] theorem State.setSe_resp (b : Bool) : (s.setSe b).resp = s.resp := rfl

/-! ## setFlip -/

@[simp] theorem State.setFlip_phase (b : Bool) : (s.setFlip b).phase = s.phase := rfl
@[simp] theorem State.setFlip_prog (b : Bool) : (s.setFlip b).prog = s.prog := rfl
@[simp] theorem State.setFlip_ram (b : Bool) : (s.setFlip b).ram = s.ram := rfl
@[simp] theorem State.setFlip_ie (b : Bool) : (s.setFlip b).ie = s.ie := rfl
@[simp] theorem State.setFlip_se (b : Bool) : (s.setFlip b).se = s.se := rfl
@[simp] theorem State.setFlip_flip (b : Bool) : (s.setFlip b).flip = b := rfl
@[simp] theorem State.setFlip_sprpos (b : Bool) : (s.setFlip b).sprpos = s.sprpos := rfl
@[simp] theorem State.setFlip_vec (b : Bool) : (s.setFlip b).vec = s.vec := rfl
@[simp] theorem State.setFlip_in0 (b : Bool) : (s.setFlip b).in0 = s.in0 := rfl
@[simp] theorem State.setFlip_in1 (b : Bool) : (s.setFlip b).in1 = s.in1 := rfl
@[simp] theorem State.setFlip_dip (b : Bool) : (s.setFlip b).dip = s.dip := rfl
@[simp] theorem State.setFlip_tile (b : Bool) : (s.setFlip b).tile = s.tile := rfl
@[simp] theorem State.setFlip_sprite (b : Bool) : (s.setFlip b).sprite = s.sprite := rfl
@[simp] theorem State.setFlip_pal (b : Bool) : (s.setFlip b).pal = s.pal := rfl
@[simp] theorem State.setFlip_fb (b : Bool) : (s.setFlip b).fb = s.fb := rfl
@[simp] theorem State.setFlip_roms (b : Bool) : (s.setFlip b).roms = s.roms := rfl
@[simp] theorem State.setFlip_tkey (b : Bool) : (s.setFlip b).tkey = s.tkey := rfl
@[simp] theorem State.setFlip_pending (b : Bool) : (s.setFlip b).pending = s.pending := rfl
@[simp] theorem State.setFlip_resp (b : Bool) : (s.setFlip b).resp = s.resp := rfl

/-! ## setSprpos -/

@[simp] theorem State.setSprpos_phase (k : Nat) (v : Byte) : (s.setSprpos k v).phase = s.phase := rfl
@[simp] theorem State.setSprpos_prog (k : Nat) (v : Byte) : (s.setSprpos k v).prog = s.prog := rfl
@[simp] theorem State.setSprpos_ram (k : Nat) (v : Byte) : (s.setSprpos k v).ram = s.ram := rfl
@[simp] theorem State.setSprpos_ie (k : Nat) (v : Byte) : (s.setSprpos k v).ie = s.ie := rfl
@[simp] theorem State.setSprpos_se (k : Nat) (v : Byte) : (s.setSprpos k v).se = s.se := rfl
@[simp] theorem State.setSprpos_flip (k : Nat) (v : Byte) : (s.setSprpos k v).flip = s.flip := rfl
@[simp] theorem State.setSprpos_sprpos (k : Nat) (v : Byte) : (s.setSprpos k v).sprpos = s.sprpos.setIfInBounds k v := rfl
@[simp] theorem State.setSprpos_vec (k : Nat) (v : Byte) : (s.setSprpos k v).vec = s.vec := rfl
@[simp] theorem State.setSprpos_in0 (k : Nat) (v : Byte) : (s.setSprpos k v).in0 = s.in0 := rfl
@[simp] theorem State.setSprpos_in1 (k : Nat) (v : Byte) : (s.setSprpos k v).in1 = s.in1 := rfl
@[simp] theorem State.setSprpos_dip (k : Nat) (v : Byte) : (s.setSprpos k v).dip = s.dip := rfl
@[simp] theorem State.setSprpos_tile (k : Nat) (v : Byte) : (s.setSprpos k v).tile = s.tile := rfl
@[simp] theorem State.setSprpos_sprite (k : Nat) (v : Byte) : (s.setSprpos k v).sprite = s.sprite := rfl
@[simp] theorem State.setSprpos_pal (k : Nat) (v : Byte) : (s.setSprpos k v).pal = s.pal := rfl
@[simp] theorem State.setSprpos_fb (k : Nat) (v : Byte) : (s.setSprpos k v).fb = s.fb := rfl
@[simp] theorem State.setSprpos_roms (k : Nat) (v : Byte) : (s.setSprpos k v).roms = s.roms := rfl
@[simp] theorem State.setSprpos_tkey (k : Nat) (v : Byte) : (s.setSprpos k v).tkey = s.tkey := rfl
@[simp] theorem State.setSprpos_pending (k : Nat) (v : Byte) : (s.setSprpos k v).pending = s.pending := rfl
@[simp] theorem State.setSprpos_resp (k : Nat) (v : Byte) : (s.setSprpos k v).resp = s.resp := rfl

/-! ## setVec -/

@[simp] theorem State.setVec_phase (v : Byte) : (s.setVec v).phase = s.phase := rfl
@[simp] theorem State.setVec_prog (v : Byte) : (s.setVec v).prog = s.prog := rfl
@[simp] theorem State.setVec_ram (v : Byte) : (s.setVec v).ram = s.ram := rfl
@[simp] theorem State.setVec_ie (v : Byte) : (s.setVec v).ie = s.ie := rfl
@[simp] theorem State.setVec_se (v : Byte) : (s.setVec v).se = s.se := rfl
@[simp] theorem State.setVec_flip (v : Byte) : (s.setVec v).flip = s.flip := rfl
@[simp] theorem State.setVec_sprpos (v : Byte) : (s.setVec v).sprpos = s.sprpos := rfl
@[simp] theorem State.setVec_vec (v : Byte) : (s.setVec v).vec = v := rfl
@[simp] theorem State.setVec_in0 (v : Byte) : (s.setVec v).in0 = s.in0 := rfl
@[simp] theorem State.setVec_in1 (v : Byte) : (s.setVec v).in1 = s.in1 := rfl
@[simp] theorem State.setVec_dip (v : Byte) : (s.setVec v).dip = s.dip := rfl
@[simp] theorem State.setVec_tile (v : Byte) : (s.setVec v).tile = s.tile := rfl
@[simp] theorem State.setVec_sprite (v : Byte) : (s.setVec v).sprite = s.sprite := rfl
@[simp] theorem State.setVec_pal (v : Byte) : (s.setVec v).pal = s.pal := rfl
@[simp] theorem State.setVec_fb (v : Byte) : (s.setVec v).fb = s.fb := rfl
@[simp] theorem State.setVec_roms (v : Byte) : (s.setVec v).roms = s.roms := rfl
@[simp] theorem State.setVec_tkey (v : Byte) : (s.setVec v).tkey = s.tkey := rfl
@[simp] theorem State.setVec_pending (v : Byte) : (s.setVec v).pending = s.pending := rfl
@[simp] theorem State.setVec_resp (v : Byte) : (s.setVec v).resp = s.resp := rfl

/-! ## setFb -/

@[simp] theorem State.setFb_phase (f : Framebuffer) : (s.setFb f).phase = s.phase := rfl
@[simp] theorem State.setFb_prog (f : Framebuffer) : (s.setFb f).prog = s.prog := rfl
@[simp] theorem State.setFb_ram (f : Framebuffer) : (s.setFb f).ram = s.ram := rfl
@[simp] theorem State.setFb_ie (f : Framebuffer) : (s.setFb f).ie = s.ie := rfl
@[simp] theorem State.setFb_se (f : Framebuffer) : (s.setFb f).se = s.se := rfl
@[simp] theorem State.setFb_flip (f : Framebuffer) : (s.setFb f).flip = s.flip := rfl
@[simp] theorem State.setFb_sprpos (f : Framebuffer) : (s.setFb f).sprpos = s.sprpos := rfl
@[simp] theorem State.setFb_vec (f : Framebuffer) : (s.setFb f).vec = s.vec := rfl
@[simp] theorem State.setFb_in0 (f : Framebuffer) : (s.setFb f).in0 = s.in0 := rfl
@[simp] theorem State.setFb_in1 (f : Framebuffer) : (s.setFb f).in1 = s.in1 := rfl
@[simp] theorem State.setFb_dip (f : Framebuffer) : (s.setFb f).dip = s.dip := rfl
@[simp] theorem State.setFb_tile (f : Framebuffer) : (s.setFb f).tile = s.tile := rfl
@[simp] theorem State.setFb_sprite (f : Framebuffer) : (s.setFb f).sprite = s.sprite := rfl
@[simp] theorem State.setFb_pal (f : Framebuffer) : (s.setFb f).pal = s.pal := rfl
@[simp] theorem State.setFb_fb (f : Framebuffer) : (s.setFb f).fb = f := rfl
@[simp] theorem State.setFb_roms (f : Framebuffer) : (s.setFb f).roms = s.roms := rfl
@[simp] theorem State.setFb_tkey (f : Framebuffer) : (s.setFb f).tkey = s.tkey := rfl
@[simp] theorem State.setFb_pending (f : Framebuffer) : (s.setFb f).pending = s.pending := rfl
@[simp] theorem State.setFb_resp (f : Framebuffer) : (s.setFb f).resp = s.resp := rfl

/-! ## loadTables -/

@[simp] theorem State.loadTables_phase (r : RomImages) : (s.loadTables r).phase = s.phase := rfl
@[simp] theorem State.loadTables_prog (r : RomImages) : (s.loadTables r).prog = loadProgram r := rfl
@[simp] theorem State.loadTables_ram (r : RomImages) : (s.loadTables r).ram = s.ram := rfl
@[simp] theorem State.loadTables_ie (r : RomImages) : (s.loadTables r).ie = s.ie := rfl
@[simp] theorem State.loadTables_se (r : RomImages) : (s.loadTables r).se = s.se := rfl
@[simp] theorem State.loadTables_flip (r : RomImages) : (s.loadTables r).flip = s.flip := rfl
@[simp] theorem State.loadTables_sprpos (r : RomImages) : (s.loadTables r).sprpos = s.sprpos := rfl
@[simp] theorem State.loadTables_vec (r : RomImages) : (s.loadTables r).vec = s.vec := rfl
@[simp] theorem State.loadTables_in0 (r : RomImages) : (s.loadTables r).in0 = s.in0 := rfl
@[simp] theorem State.loadTables_in1 (r : RomImages) : (s.loadTables r).in1 = s.in1 := rfl
@[simp] theorem State.loadTables_dip (r : RomImages) : (s.loadTables r).dip = s.dip := rfl
@[simp] theorem State.loadTables_tile (r : RomImages) : (s.loadTables r).tile = decodeTiles (romBytes r .tilerom) := rfl
@[simp] theorem State.loadTables_sprite (r : RomImages) : (s.loadTables r).sprite = decodeSprites (romBytes r .sprrom) := rfl
@[simp] theorem State.loadTables_pal (r : RomImages) : (s.loadTables r).pal = decodePalettes (romBytes r .colrom) (romBytes r .palrom) := rfl
@[simp] theorem State.loadTables_fb (r : RomImages) : (s.loadTables r).fb = s.fb := rfl
@[simp] theorem State.loadTables_roms (r : RomImages) : (s.loadTables r).roms = s.roms := rfl
@[simp] theorem State.loadTables_tkey (r : RomImages) : (s.loadTables r).tkey = s.tkey := rfl
@[simp] theorem State.loadTables_pending (r : RomImages) : (s.loadTables r).pending = s.pending := rfl
@[simp] theorem State.loadTables_resp (r : RomImages) : (s.loadTables r).resp = s.resp := rfl

/-! ## issue -/

@[simp] theorem State.issue_phase (w : TxnWord) : (s.issue w).phase = s.phase := rfl
@[simp] theorem State.issue_prog (w : TxnWord) : (s.issue w).prog = s.prog := rfl
@[simp] theorem State.issue_ram (w : TxnWord) : (s.issue w).ram = s.ram := rfl
@[simp] theorem State.issue_ie (w : TxnWord) : (s.issue w).ie = s.ie := rfl
@[simp] theorem State.issue_se (w : TxnWord) : (s.issue w).se = s.se := rfl
@[simp] theorem State.issue_flip (w : TxnWord) : (s.issue w).flip = s.flip := rfl
@[simp] theorem State.issue_sprpos (w : TxnWord) : (s.issue w).sprpos = s.sprpos := rfl
@[simp] theorem State.issue_vec (w : TxnWord) : (s.issue w).vec = s.vec := rfl
@[simp] theorem State.issue_in0 (w : TxnWord) : (s.issue w).in0 = s.in0 := rfl
@[simp] theorem State.issue_in1 (w : TxnWord) : (s.issue w).in1 = s.in1 := rfl
@[simp] theorem State.issue_dip (w : TxnWord) : (s.issue w).dip = s.dip := rfl
@[simp] theorem State.issue_tile (w : TxnWord) : (s.issue w).tile = s.tile := rfl
@[simp] theorem State.issue_sprite (w : TxnWord) : (s.issue w).sprite = s.sprite := rfl
@[simp] theorem State.issue_pal (w : TxnWord) : (s.issue w).pal = s.pal := rfl
@[simp] theorem State.issue_fb (w : TxnWord) : (s.issue w).fb = s.fb := rfl
@[simp] theorem State.issue_roms (w : TxnWord) : (s.issue w).roms = s.roms := rfl
@[simp] theorem State.issue_tkey (w : TxnWord) : (s.issue w).tkey = s.tkey := rfl
@[simp] theorem State.issue_pending (w : TxnWord) : (s.issue w).pending = w :: s.pending := rfl
@[simp] theorem State.issue_resp (w : TxnWord) : (s.issue w).resp = s.resp := rfl

/-! ## setLatch -/

@[simp] theorem State.setLatch_phase (l : Latch) (v : Byte) : (s.setLatch l v).phase = s.phase := by cases l <;> rfl
@[simp] theorem State.setLatch_prog (l : Latch) (v : Byte) : (s.setLatch l v).prog = s.prog := by cases l <;> rfl
@[simp] theorem State.setLatch_ram (l : Latch) (v : Byte) : (s.setLatch l v).ram = s.ram := by cases l <;> rfl
@[simp] theorem State.setLatch_ie (l : Latch) (v : Byte) : (s.setLatch l v).ie = s.ie := by cases l <;> rfl
@[simp] theorem State.setLatch_se (l : Latch) (v : Byte) : (s.setLatch l v).se = s.se := by cases l <;> rfl
@[simp] theorem State.setLatch_flip (l : Latch) (v : Byte) : (s.setLatch l v).flip = s.flip := by cases l <;> rfl
@[simp] theorem State.setLatch_sprpos (l : Latch) (v : Byte) : (s.setLatch l v).sprpos = s.sprpos := by cases l <;> rfl
@[simp] theorem State.setLatch_vec (l : Latch) (v : Byte) : (s.setLatch l v).vec = s.vec := by cases l <;> rfl
@[simp] theorem State.setLatch_dip (l : Latch) (v : Byte) : (s.setLatch l v).dip = s.dip := by cases l <;> rfl
@[simp] theorem State.setLatch_tile (l : Latch) (v : Byte) : (s.setLatch l v).tile = s.tile := by cases l <;> rfl
@[simp] theorem State.setLatch_sprite (l : Latch) (v : Byte) : (s.setLatch l v).sprite = s.sprite := by cases l <;> rfl
@[simp] theorem State.setLatch_pal (l : Latch) (v : Byte) : (s.setLatch l v).pal = s.pal := by cases l <;> rfl
@[simp] theorem State.setLatch_fb (l : Latch) (v : Byte) : (s.setLatch l v).fb = s.fb := by cases l <;> rfl
@[simp] theorem State.setLatch_roms (l : Latch) (v : Byte) : (s.setLatch l v).roms = s.roms := by cases l <;> rfl
@[simp] theorem State.setLatch_tkey (l : Latch) (v : Byte) : (s.setLatch l v).tkey = s.tkey := by cases l <;> rfl
@[simp] theorem State.setLatch_pending (l : Latch) (v : Byte) : (s.setLatch l v).pending = s.pending := by cases l <;> rfl
@[simp] theorem State.setLatch_resp (l : Latch) (v : Byte) : (s.setLatch l v).resp = s.resp := by cases l <;> rfl

@[simp] theorem State.setLatch_in0 (l : Latch) (v : Byte) : (s.setLatch l v).in0 = if l = .in0 then v else s.in0 := by cases l <;> rfl
@[simp] theorem State.setLatch_in1 (l : Latch) (v : Byte) : (s.setLatch l v).in1 = if l = .in1 then v else s.in1 := by cases l <;> rfl
@[simp] theorem State.setLatch_latch (l : Latch) (v : Byte) : (s.setLatch l v).latch l = v := by cases l <;> rfl

/-! ## Reads through the state -/

@[simp] theorem State.setRam_ramByte (o : Nat) (v : Byte) (a : Nat) : (s.setRam o v).ramByte a = Memory.read (Memory.write s.ram o v) a := rfl

/-- A later reply replaces an earlier one. -/
theorem State.reply_reply (r q : Response) : (s.reply r).reply q = s.reply q := rfl

theorem State.issue_fetch (w : TxnWord) : (s.issue w).fetch = some (w, s) := rfl

end Sys2Proof.Machine
end

