-- ==== Sys2Proof/Laws/Memory.lean ====
section
/-! SUPPORT. Byte memory: a read after a write, the canonical form is kept, writes to different offsets commute, and what a memory made of a byte
sequence reads as. -/

namespace Sys2Proof.Machine

variable {m : Memory} {lo size a b : Nat} {u v : Byte}

@[simp] theorem Memory.read_nil (a : Nat) : Memory.read [] a = Memory.unlisted := rfl

theorem Memory.read_cons (c : Nat) (u : Byte) (m : Memory) (a : Nat) :
    Memory.read ((c, u) :: m) a = if c = a then u else Memory.read m a := rfl

theorem Memory.wfFrom_cons {c : Nat} {u : Byte} {m : Memory} :
    Memory.wfFrom lo size ((c, u) :: m) = true ↔ lo ≤ c ∧ c < size ∧ u ≠ Memory.unlisted ∧ Memory.wfFrom (c + 1) size m = true := by
  simp [Memory.wfFrom, and_assoc]

/-- A canonical memory from offset `lo` on lists nothing below it. -/
theorem Memory.read_below (h : Memory.wfFrom lo size m = true) (ha : a < lo) : Memory.read m a = Memory.unlisted := by
  induction m generalizing lo with
  | nil => rfl
  | cons c m ih =>
    obtain ⟨h1, _, _, h4⟩ := Memory.wfFrom_cons.1 h
    rw [Memory.read_cons, if_neg (by omega)]
    exact ih h4 (by omega)

theorem Memory.wfFrom_mono {lo' : Nat} (h : Memory.wfFrom lo size m = true) (hl : lo' ≤ lo) : Memory.wfFrom lo' size m = true := by
  cases m with
  | nil => rfl
  | cons c m =>
    obtain ⟨h1, h2, h3, h4⟩ := Memory.wfFrom_cons.1 h
    exact Memory.wfFrom_cons.2 ⟨by omega, h2, h3, h4⟩

/-- A write keeps the canonical form. -/
theorem Memory.wfFrom_write (h : Memory.wfFrom lo size m = true) (hl : lo ≤ a) (hs : a < size) :
    Memory.wfFrom lo size (Memory.write m a v) = true := by
  induction m generalizing lo with
  | nil =>
    unfold Memory.write
    split
    · rfl
    · exact Memory.wfFrom_cons.2 ⟨hl, hs, ‹_›, rfl⟩
  | cons c m ih =>
    obtain ⟨b, u⟩ := c
    obtain ⟨h1, h2, h3, h4⟩ := Memory.wfFrom_cons.1 h
    unfold Memory.write
    split
    · split
      · exact h
      · exact Memory.wfFrom_cons.2 ⟨hl, hs, ‹_›, Memory.wfFrom_cons.2 ⟨by omega, h2, h3, h4⟩⟩
    · split
      · subst a
        split
        · exact Memory.wfFrom_mono h4 (by omega)
        · exact Memory.wfFrom_cons.2 ⟨hl, hs, ‹_›, h4⟩
      · exact Memory.wfFrom_cons.2 ⟨h1, h2, h3, ih h4 (by omega)⟩

theorem Memory.wf_write (h : Memory.wf size m = true) (hs : a < size) : Memory.wf size (Memory.write m a v) = true :=
  Memory.wfFrom_write h (Nat.zero_le a) hs

/-- A read after a write to a canonical memory. -/
theorem Memory.read_writeFrom (h : Memory.wfFrom lo size m = true) :
    Memory.read (Memory.write m a v) b = if b = a then v else Memory.read m b := by
  induction m generalizing lo with
  | nil =>
    unfold Memory.write
    split
    · by_cases hb : b = a <;> simp_all
    · by_cases hb : b = a
      · simp [Memory.read_cons, hb]
      · simp [Memory.read_cons, hb, Ne.symm hb]
  | cons c m ih =>
    obtain ⟨c, u⟩ := c
    obtain ⟨h1, h2, h3, h4⟩ := Memory.wfFrom_cons.1 h
    unfold Memory.write
    split
    · split
      · by_cases hb : b = a
        · subst hb
          rw [if_pos rfl, ‹v = _›]
          exact Memory.read_below (Memory.wfFrom_cons.2 ⟨Nat.le_refl c, h2, h3, h4⟩) (by omega)
        · rw [if_neg hb]
      · rw [Memory.read_cons]
        by_cases hb : b = a
        · simp [hb]
        · simp [hb, Ne.symm hb]
    · split
      · subst a
        split
        · by_cases hb : b = c
          · rw [if_pos hb, hb, ‹v = _›]; exact Memory.read_below h4 (by omega)
          · rw [if_neg hb, Memory.read_cons, if_neg (by omega)]
        · simp only [Memory.read_cons]
          by_cases hb : b = c <;> simp [hb, eq_comm]
      · rw [Memory.read_cons, Memory.read_cons, ih h4]
        by_cases hb : b = a
        · rw [if_neg (by omega), if_pos hb, if_pos hb]
        · rw [if_neg hb, if_neg hb]

theorem Memory.read_write (h : Memory.wf size m = true) :
    Memory.read (Memory.write m a v) b = if b = a then v else Memory.read m b := Memory.read_writeFrom h

/-- A canonical memory reads as unlisted from its size on. -/
theorem Memory.read_above (h : Memory.wfFrom lo size m = true) (ha : size ≤ a) : Memory.read m a = Memory.unlisted := by
  induction m generalizing lo with
  | nil => rfl
  | cons c m ih =>
    obtain ⟨_, h2, _, h4⟩ := Memory.wfFrom_cons.1 h
    rw [Memory.read_cons, if_neg (by omega)]
    exact ih h4

/-- Canonical memories that read alike are equal. -/
theorem Memory.ext_wfFrom {m' : Memory} (h : Memory.wfFrom lo size m = true) (h' : Memory.wfFrom lo size m' = true)
    (hr : ∀ a, Memory.read m a = Memory.read m' a) : m = m' := by
  induction m generalizing lo m' with
  | nil =>
    cases m' with
    | nil => rfl
    | cons c m' =>
      obtain ⟨c, u⟩ := c
      obtain ⟨_, _, h3, _⟩ := Memory.wfFrom_cons.1 h'
      have := hr c
      rw [Memory.read_nil, Memory.read_cons, if_pos rfl] at this
      exact absurd this.symm h3
  | cons c m ih =>
    obtain ⟨c, u⟩ := c
    obtain ⟨h1, h2, h3, h4⟩ := Memory.wfFrom_cons.1 h
    cases m' with
    | nil =>
      have := hr c
      rw [Memory.read_nil, Memory.read_cons, if_pos rfl] at this
      exact absurd this h3
    | cons d m' =>
      obtain ⟨d, w⟩ := d
      obtain ⟨k1, k2, k3, k4⟩ := Memory.wfFrom_cons.1 h'
      have hcd : c = d := by
        rcases Nat.lt_trichotomy c d with hlt | heq | hgt
        · have := hr c
          rw [Memory.read_cons, if_pos rfl, Memory.read_cons, if_neg (by omega), Memory.read_below k4 (by omega)] at this
          exact absurd this h3
        · exact heq
        · have := hr d
          rw [Memory.read_cons, if_neg (by omega), Memory.read_below h4 (by omega), Memory.read_cons, if_pos rfl] at this
          exact absurd this.symm k3
      subst hcd
      have huw : u = w := by simpa [Memory.read_cons] using hr c
      subst huw
      congr 1
      refine ih h4 k4 fun a => ?_
      by_cases ha : c = a
      · rw [Memory.read_below h4 (by omega), Memory.read_below k4 (by omega)]
      · simpa [Memory.read_cons, ha] using hr a

theorem Memory.ext_wf {m' : Memory} (h : Memory.wf size m = true) (h' : Memory.wf size m' = true)
    (hr : ∀ a, Memory.read m a = Memory.read m' a) : m = m' := Memory.ext_wfFrom h h' hr

/-- Writes to different offsets commute. -/
theorem Memory.write_comm (h : Memory.wf size m = true) (ha : a < size) (hb : b < size) (hab : a ≠ b) :
    Memory.write (Memory.write m a u) b v = Memory.write (Memory.write m b v) a u := by
  have h1 := Memory.wf_write (v := u) h ha
  have h2 := Memory.wf_write (v := v) h hb
  refine Memory.ext_wf (Memory.wf_write h1 hb) (Memory.wf_write h2 ha) fun c => ?_
  rw [Memory.read_write h1, Memory.read_write h, Memory.read_write h2, Memory.read_write h]
  by_cases c1 : c = a <;> by_cases c2 : c = b <;> simp_all

/-- A second write to an offset replaces the first. -/
theorem Memory.write_write (h : Memory.wf size m = true) (ha : a < size) :
    Memory.write (Memory.write m a u) a v = Memory.write m a v := by
  have h1 := Memory.wf_write (v := u) h ha
  refine Memory.ext_wf (Memory.wf_write h1 ha) (Memory.wf_write h ha) fun c => ?_
  rw [Memory.read_write h1, Memory.read_write h, Memory.read_write h]
  split <;> rfl

/-- A memory made of a byte sequence is canonical. -/
theorem Memory.wfFrom_ofBytes (bytes : List Byte) (h : a + bytes.length ≤ size) :
    Memory.wfFrom a size (Memory.ofBytes a bytes) = true := by
  induction bytes generalizing a with
  | nil => rfl
  | cons v vs ih =>
    simp only [List.length_cons] at h
    unfold Memory.ofBytes
    split
    · exact Memory.wfFrom_mono (ih (by omega)) (Nat.le_succ a)
    · exact Memory.wfFrom_cons.2 ⟨Nat.le_refl a, by omega, ‹_›, ih (by omega)⟩

/-- What a memory made of a byte sequence reads as. -/
theorem Memory.read_ofBytes (bytes : List Byte) (a k : Nat) : Memory.read (Memory.ofBytes a bytes) (a + k) = bytes.getD k 0 := by
  induction bytes generalizing a k with
  | nil => simp [Memory.ofBytes, Memory.unlisted]
  | cons v vs ih =>
    have below : Memory.read (Memory.ofBytes (a + 1) vs) a = Memory.unlisted :=
      Memory.read_below (Memory.wfFrom_ofBytes vs (Nat.le_refl _)) (Nat.lt_succ_self a)
    unfold Memory.ofBytes
    cases k with
    | zero =>
      split
      · simpa [‹v = _›, Memory.unlisted] using below
      · simp [Memory.read_cons]
    | succ k =>
      have step := ih (a + 1) k
      rw [show a + (k + 1) = a + 1 + k by omega]
      split
      · rw [step]; simp
      · rw [Memory.read_cons, if_neg (by omega), step]; simp

end Sys2Proof.Machine
end

