-- ==== Sys2Proof/Laws/Perform.lean ====
section
/-! SUPPORT. Everything `perform`, `exec` and `step` can answer. -/

namespace Sys2Proof.Machine

variable {i : Instr} {s t : State} {eff : State → State}

/-- A performed transaction: it was admitted, and the next state is its effect. -/
theorem perform_eq_next : perform i s eff = .next t ↔ admission i s.phase = none ∧ eff s = t := by
  unfold perform
  split <;> simp_all

/-- A refused transaction: the phase does not admit it. -/
theorem perform_eq_refused {r : Refusal} : perform i s eff = .refused r ↔ admission i s.phase = some r := by
  unfold perform
  split <;> simp_all

theorem perform_ne_fault {f : Fault} : perform i s eff ≠ .fault f := by cases f

/-- An admitted transaction has its effect. -/
theorem perform_of_admitted (h : admission i s.phase = none) : perform i s eff = .next (eff s) := perform_eq_next.2 ⟨h, rfl⟩

/-- The effect of a transaction, once admitted. -/
def effectOf : Instr → State → State
  | .rd8 addr, s => s.reply (.byte (busRead8 s addr))
  | .wr8 addr val, s => (busWrite8 s addr val).reply .nothing
  | .rd16 addr, s => s.reply (.word (busRead16 s addr))
  | .wr16 addr val, s => (busWrite16 s addr val).reply .nothing
  | .inp port, s => s.reply (.byte (portRead port))
  | .out port val, s => (portWrite s port val).reply .nothing
  | .keydn key, s => (keyDown s key).reply .nothing
  | .keyup key, s => (keyUp s key).reply .nothing
  | .compose, s => ((s.setFb (composeFrame s)).enter .composed).reply .nothing
  | .irqchk, s => (if s.ie then s.emitIrq else s.reply .nothing).enter .run
  | .decode, s => s.load

/-- Every transaction is admission, then its effect. -/
theorem exec_eq_perform (i : Instr) (s : State) : exec i s = perform i s (effectOf i) := by cases i <;> rfl

theorem exec_eq_next : exec i s = .next t ↔ admission i s.phase = none ∧ effectOf i s = t := by
  rw [exec_eq_perform, perform_eq_next]

theorem exec_eq_refused {r : Refusal} : exec i s = .refused r ↔ admission i s.phase = some r := by
  rw [exec_eq_perform, perform_eq_refused]

theorem exec_of_admitted (h : admission i s.phase = none) : exec i s = .next (effectOf i s) := exec_eq_next.2 ⟨h, rfl⟩

/-! ## Which phases admit -/

theorem admission_bus (h : txnClass i = .bus) (hp : s.phase = .run) : admission i s.phase = none := by
  simp [admission, h, hp]

theorem admission_key (h : txnClass i = .key) (hp : s.phase = .run ∨ s.phase = .composed) : admission i s.phase = none := by
  rcases hp with hp | hp <;> simp [admission, h, hp]

theorem admission_compose_iff {p : Phase} : admission .compose p = none ↔ p = .run := by cases p <;> simp [admission, txnClass]

theorem admission_irqchk_iff {p : Phase} : admission .irqchk p = none ↔ p = .composed := by cases p <;> simp [admission, txnClass]

theorem admission_decode_iff {p : Phase} : admission .decode p = none ↔ p = .unloaded := by cases p <;> simp [admission, txnClass]

theorem admission_inactive (i : Instr) : admission i .inactive = some (.inactive (encode i)) := rfl

/-! ## Steps -/

theorem step_of_nil (h : s.pending = []) : step s = .next s := by simp [step, State.fetch, h]

theorem step_of_ok {w : TxnWord} {rest : List TxnWord} (h : s.pending = w :: rest) (hd : decodeWord w = .ok i) :
    step s = exec i { s with pending := rest } := by simp [step, State.fetch, h, hd]

theorem step_of_error {w : TxnWord} {rest : List TxnWord} {e : DecodeError} (h : s.pending = w :: rest) (hd : decodeWord w = .error e) :
    step s = .refused (refusalOf e) := by simp [step, State.fetch, h, hd]

/-- Everything a step that answers a next state can do: nothing pending and nothing done, or one decoded transaction performed. -/
theorem step_next_cases (h : step s = .next t) :
    (s.pending = [] ∧ t = s) ∨
      ∃ w rest i, s.pending = w :: rest ∧ decodeWord w = .ok i ∧ exec i { s with pending := rest } = .next t := by
  cases hp : s.pending with
  | nil =>
    rw [step_of_nil hp] at h
    exact .inl ⟨rfl, by injection h with h; exact h.symm⟩
  | cons w rest =>
    cases hd : decodeWord w with
    | error e => rw [step_of_error hp hd] at h; cases h
    | ok i => exact .inr ⟨w, rest, i, rfl, hd, by rw [← step_of_ok hp hd]; exact h⟩

/-! ## Sequences of transactions -/

theorem performAll_append (xs ys : List Instr) (s : State) :
    performAll (xs ++ ys) s = match performAll xs s with
      | .next t => performAll ys t
      | .fault f => .fault f
      | .refused r => .refused r := by
  induction xs generalizing s with
  | nil => rfl
  | cons x xs ih =>
    simp only [List.cons_append, performAll]
    cases exec x s with
    | next t => exact ih t
    | fault f => rfl
    | refused r => rfl

theorem performAll_append_next {xs ys : List Instr} (h : performAll xs s = .next t) : performAll (xs ++ ys) s = performAll ys t := by
  rw [performAll_append, h]

theorem performAll_cons_next {x : Instr} {xs : List Instr} (h : exec x s = .next t) : performAll (x :: xs) s = performAll xs t := by
  simp [performAll, h]

/-! ## Runs -/

/-- What one step keeps, a run keeps: a relation between states that holds of a state and itself and of every step, and that composes. -/
theorem run_keeps {P : State → State → Prop} (refl : ∀ s, P s s) (trans : ∀ s t u, P s t → P t u → P s u)
    (one : ∀ s t, step s = .next t → P s t) (n : Nat) (h : Host.Core.run Sys2Proof.core n s = .next t) : P s t := by
  induction n generalizing s with
  | zero => cases h; exact refl _
  | succ n ih =>
    simp only [Host.Core.run, Sys2Proof.core] at h
    cases hs : step s with
    | next u => rw [hs] at h; exact trans s u t (one s u hs) (ih h)
    | fault f => rw [hs] at h; cases h
    | refused r => rw [hs] at h; cases h

end Sys2Proof.Machine
end

