-- ==== Sys2Proof/Laws/Bus.lean ====
section
/-! SUPPORT. Bus addresses and bus accesses: effective addresses as numbers, and everything a byte write can do. -/

namespace Sys2Proof.Machine

/-- The effective address is the bus address modulo 2^15 (R44). -/
theorem effectiveAddress_eq (addr : Word) : effectiveAddress addr = addr.toNat % 0x8000 := by
  unfold effectiveAddress
  rw [BitVec.toNat_and]
  exact Nat.and_two_pow_sub_one_eq_mod addr.toNat 15

theorem effectiveAddress_lt (addr : Word) : effectiveAddress addr < 0x8000 := by rw [effectiveAddress_eq]; omega

theorem nextAddress_toNat (addr : Word) : (nextAddress addr).toNat = (addr.toNat + 1) % 0x10000 := by
  simp [nextAddress, BitVec.toNat_add]

/-- The two bytes of a word access never have the same effective address (R114). -/
theorem effectiveAddress_next_ne (addr : Word) : effectiveAddress (nextAddress addr) ≠ effectiveAddress addr := by
  rw [effectiveAddress_eq, effectiveAddress_eq, nextAddress_toNat]; omega

/-- Setting bit 15 does not change the effective address. -/
theorem effectiveAddress_high (addr : Word) : effectiveAddress (addr ||| 0x8000) = effectiveAddress addr := by
  unfold effectiveAddress
  congr 1
  apply BitVec.eq_of_getLsbD_eq
  intro i hi
  simp only [BitVec.getLsbD_and, BitVec.getLsbD_or]
  have key : ∀ j : Fin 16, (0x8000 : Word).getLsbD j.val = true → (0x7FFF : Word).getLsbD j.val = false := by decide
  have := key ⟨i, hi⟩
  cases h1 : (0x8000 : Word).getLsbD i <;> simp_all

theorem effectiveAddress_next_high (addr : Word) :
    effectiveAddress (nextAddress (addr ||| 0x8000)) = effectiveAddress (nextAddress addr) := by
  have h := effectiveAddress_high addr
  rw [effectiveAddress_eq, effectiveAddress_eq] at h
  rw [effectiveAddress_eq, effectiveAddress_eq, nextAddress_toNat, nextAddress_toNat]
  omega

theorem and_toNat (addr : Word) : (addr &&& 0x7FFF).toNat = addr.toNat % 0x8000 := effectiveAddress_eq addr

/-- The RAM offset is the effective address less 0x4000. -/
theorem ramOffset_eq {addr : Word} (h : 0x4000 ≤ effectiveAddress addr) : ramOffset addr = effectiveAddress addr - 0x4000 := by
  rw [effectiveAddress_eq] at *
  unfold ramOffset
  rw [BitVec.toNat_sub, and_toNat]
  have : (0x4000 : Word).toNat = 0x4000 := rfl
  omega

/-- The sprite-position index is the effective address less 0x5060. -/
theorem spriteOffset_eq {addr : Word} (h : 0x5060 ≤ effectiveAddress addr) : spriteOffset addr = effectiveAddress addr - 0x5060 := by
  rw [effectiveAddress_eq] at *
  unfold spriteOffset
  rw [BitVec.toNat_sub, and_toNat]
  have : (0x5060 : Word).toNat = 0x5060 := rfl
  omega

theorem ramOffset_congr {a b : Word} (h : effectiveAddress a = effectiveAddress b) : ramOffset a = ramOffset b := by
  have : a &&& 0x7FFF = b &&& 0x7FFF := BitVec.eq_of_toNat_eq h
  rw [ramOffset, ramOffset, this]

theorem spriteOffset_congr {a b : Word} (h : effectiveAddress a = effectiveAddress b) : spriteOffset a = spriteOffset b := by
  have : a &&& 0x7FFF = b &&& 0x7FFF := BitVec.eq_of_toNat_eq h
  rw [spriteOffset, spriteOffset, this]

/-- A bus read depends on the effective address only. -/
theorem busRead8_congr (s : State) {a b : Word} (h : effectiveAddress a = effectiveAddress b) : busRead8 s a = busRead8 s b := by
  simp [busRead8, h, ramOffset_congr h]

/-- A bus write depends on the effective address only. -/
theorem busWrite8_congr (s : State) {a b : Word} (v : Byte) (h : effectiveAddress a = effectiveAddress b) :
    busWrite8 s a v = busWrite8 s b v := by
  simp [busWrite8, h, ramOffset_congr h, spriteOffset_congr h]

/-- What a register write stores is the byte's lowest bit. -/
theorem registerBit_eq (v : Byte) : registerBit v = decide (v.toNat % 2 = 1) := by
  simp [registerBit, BitVec.getLsbD, Nat.testBit_zero]

/-- Everything a byte write can do: one of five fields, named by the effective address, or nothing (R104). -/
theorem busWrite8_cases (s : State) (addr : Word) (v : Byte) :
    (0x4000 ≤ effectiveAddress addr ∧ effectiveAddress addr < 0x5000 ∧ ramOffset addr = effectiveAddress addr - 0x4000 ∧
      busWrite8 s addr v = s.setRam (ramOffset addr) v) ∨
    (effectiveAddress addr = 0x5000 ∧ busWrite8 s addr v = s.setIe (registerBit v)) ∨
    (effectiveAddress addr = 0x5001 ∧ busWrite8 s addr v = s.setSe (registerBit v)) ∨
    (effectiveAddress addr = 0x5003 ∧ busWrite8 s addr v = s.setFlip (registerBit v)) ∨
    (0x5060 ≤ effectiveAddress addr ∧ effectiveAddress addr < 0x5070 ∧ spriteOffset addr = effectiveAddress addr - 0x5060 ∧
      busWrite8 s addr v = s.setSprpos (spriteOffset addr) v) ∨
    (¬ (0x4000 ≤ effectiveAddress addr ∧ effectiveAddress addr < 0x5000) ∧ effectiveAddress addr ≠ 0x5000 ∧
      effectiveAddress addr ≠ 0x5001 ∧ effectiveAddress addr ≠ 0x5003 ∧
      ¬ (0x5060 ≤ effectiveAddress addr ∧ effectiveAddress addr < 0x5070) ∧ busWrite8 s addr v = s) := by
  have hr := @ramOffset_eq addr
  have hs := @spriteOffset_eq addr
  unfold busWrite8 writeRegion
  revert hr hs
  generalize effectiveAddress addr = e
  intro hr hs
  by_cases h1 : e ≤ 0x3FFF
  · simp only [if_pos h1]; right; right; right; right; right; refine ⟨?_, ?_, ?_, ?_, ?_, by trivial⟩ <;> omega
  by_cases h2 : e ≤ 0x4FFF
  · simp only [if_neg h1, if_pos h2]; left; exact ⟨by omega, by omega, hr (by omega), by trivial⟩
  by_cases h3 : e = 0x5000
  · simp only [if_neg h1, if_neg h2, if_pos h3]; right; left; exact ⟨h3, by trivial⟩
  by_cases h4 : e = 0x5001
  · simp only [if_neg h1, if_neg h2, if_neg h3, if_pos h4]; right; right; left; exact ⟨h4, by trivial⟩
  by_cases h5 : e = 0x5003
  · simp only [if_neg h1, if_neg h2, if_neg h3, if_neg h4, if_pos h5]; right; right; right; left; exact ⟨h5, by trivial⟩
  by_cases h6 : 0x5060 ≤ e ∧ e ≤ 0x506F
  · simp only [if_neg h1, if_neg h2, if_neg h3, if_neg h4, if_neg h5, if_pos h6]
    right; right; right; right; left; exact ⟨h6.1, by omega, hs (by omega), by trivial⟩
  · simp only [if_neg h1, if_neg h2, if_neg h3, if_neg h4, if_neg h5, if_neg h6]
    right; right; right; right; right
    refine ⟨by omega, h3, h4, h5, by omega, ?_⟩
    split <;> rename_i hh <;> revert hh <;> split <;> simp

/-- A byte write keeps the memory's canonical form and every field but the five that bus writes name. -/
theorem busWrite8_frame (s : State) (addr : Word) (v : Byte) :
    (busWrite8 s addr v).phase = s.phase ∧ (busWrite8 s addr v).prog = s.prog ∧ (busWrite8 s addr v).vec = s.vec ∧
    (busWrite8 s addr v).in0 = s.in0 ∧ (busWrite8 s addr v).in1 = s.in1 ∧ (busWrite8 s addr v).dip = s.dip ∧
    (busWrite8 s addr v).tile = s.tile ∧ (busWrite8 s addr v).sprite = s.sprite ∧ (busWrite8 s addr v).pal = s.pal ∧
    (busWrite8 s addr v).fb = s.fb ∧ (busWrite8 s addr v).roms = s.roms ∧ (busWrite8 s addr v).tkey = s.tkey ∧
    (busWrite8 s addr v).pending = s.pending ∧ (busWrite8 s addr v).resp = s.resp := by
  rcases busWrite8_cases s addr v with ⟨_, _, _, h⟩ | ⟨_, h⟩ | ⟨_, h⟩ | ⟨_, h⟩ | ⟨_, _, _, h⟩ | ⟨_, _, _, _, _, h⟩ <;> simp [h]

theorem busWrite8_wf (s : State) (addr : Word) (v : Byte) (h : Memory.wf 0x1000 s.ram = true) :
    Memory.wf 0x1000 (busWrite8 s addr v).ram = true := by
  rcases busWrite8_cases s addr v with ⟨_, _, _, e⟩ | ⟨_, e⟩ | ⟨_, e⟩ | ⟨_, e⟩ | ⟨_, _, _, e⟩ | ⟨_, _, _, _, _, e⟩ <;> rw [e]
  · exact Memory.wf_write h (by omega)
  all_goals exact h

theorem setIfInBounds_comm {α : Type} {n a b : Nat} (x : Vector α n) (u v : α) (h : a ≠ b) :
    (x.setIfInBounds a u).setIfInBounds b v = (x.setIfInBounds b v).setIfInBounds a u := by
  apply Vector.ext
  intro i hi
  simp only [Vector.getElem_setIfInBounds]
  by_cases h1 : b = i <;> by_cases h2 : a = i <;> simp_all

theorem setIfInBounds_twice {α : Type} {n a : Nat} (x : Vector α n) (u v : α) :
    (x.setIfInBounds a u).setIfInBounds a v = x.setIfInBounds a v := by
  apply Vector.ext
  intro i hi
  simp only [Vector.getElem_setIfInBounds]
  split <;> rfl

/-- Byte writes to different effective addresses commute (R57). -/
theorem busWrite8_comm (s : State) {a b : Word} (u v : Byte) (h : Memory.wf 0x1000 s.ram = true)
    (hab : effectiveAddress a ≠ effectiveAddress b) :
    busWrite8 (busWrite8 s a u) b v = busWrite8 (busWrite8 s b v) a u := by
  have hb := fun s => busWrite8_cases s b v
  rcases busWrite8_cases s a u with ⟨a1, a2, ao, ea⟩ | ⟨a1, ea⟩ | ⟨a1, ea⟩ | ⟨a1, ea⟩ | ⟨a1, a2, ao, ea⟩ | ⟨a1, a2, a3, a4, a5, ea⟩ <;>
  rcases hb s with ⟨b1, b2, bo, eb⟩ | ⟨b1, eb⟩ | ⟨b1, eb⟩ | ⟨b1, eb⟩ | ⟨b1, b2, bo, eb⟩ | ⟨b1, b2, b3, b4, b5, eb⟩ <;>
  rcases hb (busWrite8 s a u) with
    ⟨c1, c2, co, ec⟩ | ⟨c1, ec⟩ | ⟨c1, ec⟩ | ⟨c1, ec⟩ | ⟨c1, c2, co, ec⟩ | ⟨c1, c2, c3, c4, c5, ec⟩ <;>
  first
    | (exfalso; omega)
    | skip
  all_goals
    rcases busWrite8_cases (busWrite8 s b v) a u with
      ⟨d1, d2, dd, ed⟩ | ⟨d1, ed⟩ | ⟨d1, ed⟩ | ⟨d1, ed⟩ | ⟨d1, d2, dd, ed⟩ | ⟨d1, d2, d3, d4, d5, ed⟩ <;>
    first
      | (exfalso; omega)
      | skip
  all_goals rw [ec, ed, ea, eb]
  all_goals first
    | rfl
    | (simp only [State.setRam]; rw [Memory.write_comm h (by omega) (by omega) (by omega)])
    | (simp only [State.setSprpos]
       rw [setIfInBounds_comm _ _ _ (by omega)])

/-- A byte written twice to one address is a byte written once (R57). -/
theorem busWrite8_twice (s : State) (a : Word) (v : Byte) (h : Memory.wf 0x1000 s.ram = true) :
    busWrite8 (busWrite8 s a v) a v = busWrite8 s a v := by
  rcases busWrite8_cases s a v with ⟨a1, a2, ao, ea⟩ | ⟨a1, ea⟩ | ⟨a1, ea⟩ | ⟨a1, ea⟩ | ⟨a1, a2, ao, ea⟩ | ⟨a1, a2, a3, a4, a5, ea⟩ <;>
  rcases busWrite8_cases (busWrite8 s a v) a v with
    ⟨c1, c2, co, ec⟩ | ⟨c1, ec⟩ | ⟨c1, ec⟩ | ⟨c1, ec⟩ | ⟨c1, c2, co, ec⟩ | ⟨c1, c2, c3, c4, c5, ec⟩ <;>
  first
    | (exfalso; omega)
    | skip
  all_goals rw [ec, ea]
  all_goals first
    | rfl
    | (simp only [State.setRam]; rw [Memory.write_write h (by omega)])
    | (simp only [State.setSprpos]; rw [setIfInBounds_twice])

/-- What a bus write depends on and leaves is not what a reply changes. -/
theorem busWrite8_reply (s : State) (a : Word) (v : Byte) (r : Response) : busWrite8 (s.reply r) a v = (busWrite8 s a v).reply r := by
  unfold busWrite8; split <;> rfl

@[simp] theorem busRead8_reply (s : State) (a : Word) (r : Response) : busRead8 (s.reply r) a = busRead8 s a := by
  unfold busRead8; split <;> rfl

/-- Reads after a byte write: the written byte in RAM, every other address as before, in RAM and in ROM. -/
theorem busWrite8_ram (s : State) (a : Word) (v : Byte) (o : Nat) (h : Memory.wf 0x1000 s.ram = true) :
    (busWrite8 s a v).ramByte o =
      if 0x4000 ≤ effectiveAddress a ∧ effectiveAddress a < 0x5000 ∧ o = effectiveAddress a - 0x4000 then v else s.ramByte o := by
  rcases busWrite8_cases s a v with ⟨a1, a2, ao, ea⟩ | ⟨a1, ea⟩ | ⟨a1, ea⟩ | ⟨a1, ea⟩ | ⟨a1, a2, ao, ea⟩ | ⟨a1, a2, a3, a4, a5, ea⟩ <;> rw [ea]
  · rw [State.setRam_ramByte, Memory.read_write h]
    by_cases ho : o = ramOffset a
    · rw [if_pos ho, if_pos ⟨a1, a2, by omega⟩]
    · rw [if_neg ho, if_neg (fun c => ho (by omega))]; rfl
  all_goals rw [if_neg (by omega)]; try rfl

end Sys2Proof.Machine
end

