-- ==== Sys2Proof/Laws/Fields.lean ====
section
/-! SUPPORT. The fields of a transaction word as numbers: what each field of a word is, a word is its fields, and the opcode table's rows do not
overlap. -/

namespace Sys2Proof

theorem opField_toNat (w : TxnWord) : (opField w).toNat = w.toNat / 2 ^ 36 := by
  have := w.isLt
  simp only [opField, BitVec.extractLsb'_toNat, Nat.shiftRight_eq_div_pow]
  omega

theorem kField_toNat (w : TxnWord) : (kField w).toNat = w.toNat / 2 ^ 32 % 16 := by
  simp [kField, BitVec.extractLsb'_toNat, Nat.shiftRight_eq_div_pow]

theorem aField_toNat (w : TxnWord) : (aField w).toNat = w.toNat / 2 ^ 16 % 2 ^ 16 := by
  simp [aField, BitVec.extractLsb'_toNat, Nat.shiftRight_eq_div_pow]

theorem dField_toNat (w : TxnWord) : (dField w).toNat = w.toNat % 2 ^ 16 := by
  simp [dField, BitVec.extractLsb'_toNat]

theorem lowByte_toNat (v : Word) : (lowByte v).toNat = v.toNat % 256 := by
  simp [lowByte, BitVec.extractLsb'_toNat]

theorem highByte_toNat (v : Word) : (highByte v).toNat = v.toNat / 256 := by
  have := v.isLt
  simp only [highByte, BitVec.extractLsb'_toNat, Nat.shiftRight_eq_div_pow]
  omega

theorem zextByte_toNat (v : Byte) : (zextByte v).toNat = v.toNat := by
  have := v.isLt
  simp only [zextByte, BitVec.toNat_setWidth]
  omega

theorem append_toNat {n m : Nat} (x : BitVec n) (y : BitVec m) : (x ++ y).toNat = x.toNat * 2 ^ m + y.toNat := by
  rw [BitVec.toNat_append, ← Nat.shiftLeft_add_eq_or_of_lt y.isLt, Nat.shiftLeft_eq]

theorem txnWord_toNat (op k : BitVec 4) (a d : Word) :
    (txnWord op k a d).toNat = op.toNat * 2 ^ 36 + k.toNat * 2 ^ 32 + a.toNat * 2 ^ 16 + d.toNat := by
  have h1 := append_toNat (op ++ k ++ a) d
  have h2 := append_toNat (op ++ k) a
  have h3 := append_toNat op k
  have h : (txnWord op k a d).toNat = (op ++ k ++ a ++ d).toNat := rfl
  omega

@[simp] theorem opField_txnWord (op k : BitVec 4) (a d : Word) : opField (txnWord op k a d) = op := by
  apply BitVec.eq_of_toNat_eq
  have := op.isLt; have := k.isLt; have := a.isLt; have := d.isLt
  rw [opField_toNat, txnWord_toNat]; omega

@[simp] theorem kField_txnWord (op k : BitVec 4) (a d : Word) : kField (txnWord op k a d) = k := by
  apply BitVec.eq_of_toNat_eq
  have := op.isLt; have := k.isLt; have := a.isLt; have := d.isLt
  rw [kField_toNat, txnWord_toNat]; omega

@[simp] theorem aField_txnWord (op k : BitVec 4) (a d : Word) : aField (txnWord op k a d) = a := by
  apply BitVec.eq_of_toNat_eq
  have := op.isLt; have := k.isLt; have := a.isLt; have := d.isLt
  rw [aField_toNat, txnWord_toNat]; omega

@[simp] theorem dField_txnWord (op k : BitVec 4) (a d : Word) : dField (txnWord op k a d) = d := by
  apply BitVec.eq_of_toNat_eq
  have := op.isLt; have := k.isLt; have := a.isLt; have := d.isLt
  rw [dField_toNat, txnWord_toNat]; omega

/-- A word is its four fields. -/
theorem txnWord_fields (w : TxnWord) : txnWord (opField w) (kField w) (aField w) (dField w) = w := by
  apply BitVec.eq_of_toNat_eq
  have := w.isLt
  rw [txnWord_toNat, opField_toNat, kField_toNat, aField_toNat, dField_toNat]; omega

@[simp] theorem lowByte_zextByte (v : Byte) : lowByte (zextByte v) = v := by
  apply BitVec.eq_of_toNat_eq
  have := v.isLt
  rw [lowByte_toNat, zextByte_toNat]; omega

/-- A 16-bit field whose high byte is zero is its low byte, zero-extended. -/
theorem zextByte_lowByte {v : Word} (h : v.toNat < 256) : zextByte (lowByte v) = v := by
  apply BitVec.eq_of_toNat_eq
  rw [zextByte_toNat, lowByte_toNat]; omega

theorem txnWord_and (o k o' k' : BitVec 4) (a d a' d' : Word) :
    txnWord o k a d &&& txnWord o' k' a' d' = txnWord (o &&& o') (k &&& k') (a &&& a') (d &&& d') := by
  apply BitVec.eq_of_getLsbD_eq
  intro i _
  simp only [txnWord, BitVec.getLsbD_and, BitVec.getLsbD_append]
  iterate 3 (split; · rfl)
  rfl

theorem txnWord_eq_zero (o k : BitVec 4) (a d : Word) : txnWord o k a d = 0 ↔ o = 0 ∧ k = 0 ∧ a = 0 ∧ d = 0 := by
  constructor
  · intro h
    have h1 := opField_txnWord o k a d
    have h2 := kField_txnWord o k a d
    have h3 := aField_txnWord o k a d
    have h4 := dField_txnWord o k a d
    rw [h] at h1 h2 h3 h4
    exact ⟨h1.symm, h2.symm, h3.symm, h4.symm⟩
  · rintro ⟨rfl, rfl, rfl, rfl⟩; rfl

/-- A word has no bit of a mask set if and only if none of its fields has one of the mask's fields. -/
theorem and_txnWord_eq_zero (w : TxnWord) (o k : BitVec 4) (a d : Word) :
    w &&& txnWord o k a d = 0 ↔ opField w &&& o = 0 ∧ kField w &&& k = 0 ∧ aField w &&& a = 0 ∧ dField w &&& d = 0 := by
  conv_lhs => rw [← txnWord_fields w]
  rw [txnWord_and, txnWord_eq_zero]

/-- The high byte of a 16-bit field is zero. -/
theorem and_high_eq_zero (v : Word) : v &&& 0xFF00 = 0 ↔ v.toNat < 256 := by
  have key : v &&& 0xFF00 = 0 ↔ highByte v = 0 := by
    constructor
    · intro h
      apply BitVec.eq_of_getLsbD_eq
      intro i hi
      have := congrArg (fun x : Word => x.getLsbD (8 + i)) h
      have hb : (0xFF00 : Word).getLsbD (8 + i) = true := by
        have : ∀ j : Fin 8, (0xFF00 : Word).getLsbD (8 + j.val) = true := by decide
        exact this ⟨i, hi⟩
      simp only [BitVec.getLsbD_and, hb, Bool.and_true] at this
      simpa [highByte, hi] using this
    · intro h
      apply BitVec.eq_of_getLsbD_eq
      intro i hi
      by_cases h8 : i < 8
      · have hb : (0xFF00 : Word).getLsbD i = false := by
          have : ∀ j : Fin 8, (0xFF00 : Word).getLsbD j.val = false := by decide
          exact this ⟨i, h8⟩
        simp only [BitVec.getLsbD_and, hb, Bool.and_false]
        simp
      · have := congrArg (fun x : Byte => x.getLsbD (i - 8)) h
        have hi' : i - 8 < 8 := by omega
        have e : 8 + (i - 8) = i := by omega
        simp only [highByte, BitVec.getLsbD_extractLsb', hi', e, decide_true, Bool.true_and] at this
        simp [this]
  rw [key]
  have := highByte_toNat v
  constructor
  · intro h; rw [h] at this; simp at this; omega
  · intro h; apply BitVec.eq_of_toNat_eq; rw [this]; simp; omega

/-- What the masks of R65 say: the must-be-zero fields, one by one. -/
theorem mustBeZero_clear (op : Op) (w : TxnWord) :
    w &&& op.mustBeZero = 0 ↔
      match op with
      | .rd8 => kField w = 0 ∧ dField w = 0
      | .wr8 => kField w = 0 ∧ (dField w).toNat < 256
      | .rd16 => kField w = 0 ∧ dField w = 0
      | .wr16 => kField w = 0
      | .inp => kField w = 0 ∧ (aField w).toNat < 256 ∧ dField w = 0
      | .out => kField w = 0 ∧ (aField w).toNat < 256 ∧ (dField w).toNat < 256
      | .keydn => aField w = 0 ∧ dField w = 0
      | .keyup => aField w = 0 ∧ dField w = 0
      | .compose => kField w = 0 ∧ aField w = 0 ∧ dField w = 0
      | .irqchk => kField w = 0 ∧ aField w = 0 ∧ dField w = 0
      | .decode => kField w = 0 ∧ aField w = 0 ∧ dField w = 0 := by
  have hk : ∀ x : BitVec 4, x &&& 0xF = x := by decide
  have ha : ∀ x : Word, x &&& 0xFFFF = x := fun x => by
    rw [show (0xFFFF : Word) = BitVec.allOnes 16 from rfl, BitVec.and_allOnes]
  have h0 : ∀ x : Word, x &&& 0 = 0 := fun x => BitVec.and_zero
  have h0' : ∀ x : BitVec 4, x &&& 0 = 0 := fun x => BitVec.and_zero
  cases op <;> simp only [Op.mustBeZero]
  · rw [show (0x0F0000FFFF : TxnWord) = txnWord 0 0xF 0 0xFFFF from rfl, and_txnWord_eq_zero]
    simp only [h0, h0', hk, ha, true_and]
  · rw [show (0x0F0000FF00 : TxnWord) = txnWord 0 0xF 0 0xFF00 from rfl, and_txnWord_eq_zero, and_high_eq_zero]
    simp only [h0, h0', hk, true_and]
  · rw [show (0x0F0000FFFF : TxnWord) = txnWord 0 0xF 0 0xFFFF from rfl, and_txnWord_eq_zero]
    simp only [h0, h0', hk, ha, true_and]
  · rw [show (0x0F00000000 : TxnWord) = txnWord 0 0xF 0 0 from rfl, and_txnWord_eq_zero]
    simp only [h0, h0', hk, true_and, and_true]
  · rw [show (0x0FFF00FFFF : TxnWord) = txnWord 0 0xF 0xFF00 0xFFFF from rfl, and_txnWord_eq_zero, and_high_eq_zero]
    simp only [h0', hk, ha, true_and]
  · rw [show (0x0FFF00FF00 : TxnWord) = txnWord 0 0xF 0xFF00 0xFF00 from rfl, and_txnWord_eq_zero, and_high_eq_zero,
      and_high_eq_zero]
    simp only [h0', hk, true_and]
  · rw [show (0x00FFFFFFFF : TxnWord) = txnWord 0 0 0xFFFF 0xFFFF from rfl, and_txnWord_eq_zero]
    simp only [h0', ha, true_and]
  · rw [show (0x00FFFFFFFF : TxnWord) = txnWord 0 0 0xFFFF 0xFFFF from rfl, and_txnWord_eq_zero]
    simp only [h0', ha, true_and]
  all_goals
    rw [show (0x0FFFFFFFFF : TxnWord) = txnWord 0 0xF 0xFFFF 0xFFFF from rfl, and_txnWord_eq_zero]
    simp only [h0', hk, ha, true_and]

/-- The OP values and the defined OPs. -/
theorem ofCode_eq_some (c : BitVec 4) (op : Op) : Op.ofCode c = some op ↔ c = op.code := by
  revert c; cases op <;> decide

theorem ofCode_eq_none (c : BitVec 4) : Op.ofCode c = none ↔ c.toNat = 0 ∨ 12 ≤ c.toNat := by
  revert c; decide

@[simp] theorem ofCode_code (op : Op) : Op.ofCode op.code = some op := (ofCode_eq_some _ op).2 rfl

/-- The key numbers and the keys (R67). -/
theorem ofCode_wf (c : BitVec 4) : (Key.ofCode c).wf = true ∧ (Key.ofCode c).code = c := by
  revert c; decide

theorem keyCode_ofCode (key : Key) (h : key.wf = true) : Key.ofCode key.code = key := by
  cases key with
  | unrecognised k =>
    revert h
    have : ∀ k : BitVec 4, (Key.unrecognised k).wf = true → Key.ofCode (Key.unrecognised k).code = .unrecognised k := by decide
    exact this k
  | _ => rfl

/-- No two rows of the opcode table share a word: where both masks look, the matches differ. -/
theorem table_rows_disjoint : Op.all.Pairwise fun a b => a.mask &&& b.mask &&& (a.matchBits ^^^ b.matchBits) ≠ 0 := by decide

end Sys2Proof
end

