-- ==== Sys2Proof/Laws/Grid.lean ====
section
/-! SUPPORT. Images: what `tabulate`, `gridGet` and `gridSet` give. -/

namespace Sys2Proof.Machine

variable {α : Type}

@[simp] theorem tabulate_get {n : Nat} (f : Nat → α) (i : Nat) (h : i < n) : (tabulate n f)[i] = f i := by
  simp [tabulate]

theorem tabulate_get? {n : Nat} (f : Nat → α) (i : Nat) (h : i < n) : (tabulate n f)[i]? = some (f i) := by
  rw [Vector.getElem?_eq_getElem h, tabulate_get]

theorem gridGet_eq {w h : Nat} (g : Grid α w h) (d : α) {y x : Nat} (hy : y < h) (hx : x < w) : gridGet g d y x = g[y][x] := by
  simp [gridGet, hy, hx]

/-- The pixel of a tabulated image. -/
theorem gridGet_tabulate {w h : Nat} (f : Nat → Nat → α) (d : α) {y x : Nat} (hy : y < h) (hx : x < w) :
    gridGet (tabulate h fun y => tabulate w fun x => f y x) d y x = f y x := by
  rw [gridGet_eq _ _ hy hx]; simp

/-- The pixel of an image after one pixel is set. -/
theorem gridGet_gridSet {w h : Nat} (g : Grid α w h) (d p : α) {y x y' x' : Nat} (hy : y < h) (hx : x < w) :
    gridGet (gridSet g y' x' p) d y x = if y = y' ∧ x = x' then p else gridGet g d y x := by
  unfold gridSet
  by_cases hy' : y' < h
  · simp only [Vector.getElem?_eq_getElem hy']
    rw [gridGet_eq _ _ hy hx, gridGet_eq _ _ hy hx]
    by_cases e : y = y'
    · subst e
      by_cases e' : x = x'
      · subst e'; simp
      · have : ¬ x' = x := fun c => e' c.symm
        simp [e', this]
    · have : ¬ y' = y := fun c => e c.symm
      simp [e, this]
  · have : ¬ y = y' := by omega
    simp [hy', this]

/-- Images with the same pixels are the same. -/
theorem grid_ext {w h : Nat} (g g' : Grid α w h) (d : α) (e : ∀ y x, y < h → x < w → gridGet g d y x = gridGet g' d y x) : g = g' := by
  apply Vector.ext
  intro y hy
  apply Vector.ext
  intro x hx
  have := e y x hy hx
  rwa [gridGet_eq _ _ hy hx, gridGet_eq _ _ hy hx] at this

/-- One loop whose body, for each counter, sets the pixel at row `y`, column `x` only when the counter is `c0`. -/
theorem loop_gridGet {w h : Nat} (d : α) (f : Nat → Grid α w h → Grid α w h) (hit : Nat → Option α) (m c0 y x : Nat)
    (hf : ∀ c g, c < m → gridGet (f c g) d y x = if c = c0 then (hit c).getD (gridGet g d y x) else gridGet g d y x) (g : Grid α w h) :
    gridGet ((List.range m).foldl (fun g c => f c g) g) d y x = if c0 < m then (hit c0).getD (gridGet g d y x) else gridGet g d y x := by
  induction m generalizing g with
  | zero => simp
  | succ m ih =>
    rw [List.range_succ, List.foldl_append, List.foldl_cons, List.foldl_nil, hf m _ (by omega), ih (fun c g hc => hf c g (by omega))]
    by_cases h1 : m = c0
    · subst h1; simp
    · by_cases h2 : c0 < m
      · simp [h1, h2, show c0 < m + 1 by omega]
      · simp [h1, h2, show ¬ c0 < m + 1 by omega]

/-- Two nested loops whose body sets the pixel at row `y`, column `x` only for the counters `r0`, `c0`. -/
theorem loops_gridGet {w h : Nat} (d : α) (f : Nat → Nat → Grid α w h → Grid α w h) (hit : Nat → Nat → Option α) (n m r0 c0 y x : Nat)
    (hf : ∀ r c g, r < n → c < m →
      gridGet (f r c g) d y x = if r = r0 ∧ c = c0 then (hit r c).getD (gridGet g d y x) else gridGet g d y x) (g : Grid α w h) :
    gridGet ((List.range n).foldl (fun g r => (List.range m).foldl (fun g c => f r c g) g) g) d y x =
      if r0 < n ∧ c0 < m then (hit r0 c0).getD (gridGet g d y x) else gridGet g d y x := by
  have inner : ∀ r g, r < n → gridGet ((List.range m).foldl (fun g c => f r c g) g) d y x =
      if r = r0 then (if c0 < m then hit r c0 else none).getD (gridGet g d y x) else gridGet g d y x := by
    intro r g hr
    rw [loop_gridGet d (f r) (fun c => if r = r0 then hit r c else none) m c0 y x]
    · by_cases h1 : r = r0 <;> by_cases h2 : c0 < m <;> simp [h1, h2]
    · intro c g hc
      rw [hf r c g hr hc]
      by_cases h1 : r = r0 <;> by_cases h2 : c = c0 <;> simp [h1, h2]
  rw [loop_gridGet d (fun r g => (List.range m).foldl (fun g c => f r c g) g) (fun r => if c0 < m then hit r c0 else none) n r0 y x inner]
  by_cases h1 : r0 < n <;> by_cases h2 : c0 < m <;> simp [h1, h2]

end Sys2Proof.Machine
end

