-- ==== Sys2Proof/Laws/Frame.lean ====
section
/-! SUPPORT. Painting: what a list of block draws leaves at one pixel, and the pixels of a composed frame. -/

namespace Sys2Proof.Machine

variable {d : Draw} {ds es : List Draw} {y x : Nat} {p : Pixel}

@[simp] theorem paint_nil : paint [] y x p = p := rfl

theorem paint_cons : paint (d :: ds) y x p = paint ds y x ((d.at y x).getD p) := rfl

theorem paint_append : paint (ds ++ es) y x p = paint es y x (paint ds y x p) := by simp [paint]

/-- Blocks that write nothing at a pixel leave it. -/
theorem paint_of_none (h : ∀ d ∈ ds, d.at y x = none) : paint ds y x p = p := by
  induction ds generalizing p with
  | nil => rfl
  | cons d ds ih =>
    rw [paint_cons, h d List.mem_cons_self]
    exact ih fun e he => h e (List.mem_cons_of_mem d he)

/-- The last block that writes at a pixel decides it. -/
theorem paint_last {c : Pixel} (hd : d.at y x = some c) (h : ∀ e ∈ es, e.at y x = none) : paint (ds ++ d :: es) y x p = c := by
  rw [paint_append, paint_cons, hd]
  exact paint_of_none h

/-- What is painted is the last colour written, or the pixel painted over. -/
theorem paint_eq_findSome : paint ds y x p = (ds.reverse.findSome? fun d => d.at y x).getD p := by
  induction ds generalizing p with
  | nil => rfl
  | cons d ds ih =>
    rw [paint_cons, ih, List.reverse_cons, List.findSome?_append]
    cases h : ds.reverse.findSome? fun d => d.at y x <;> cases hd : d.at y x <;> simp [hd]

/-- Only the blocks with pixels in a row count there. -/
theorem paint_filter_inRow : paint (ds.filter fun d => d.inRow y) y x p = paint ds y x p := by
  induction ds generalizing p with
  | nil => rfl
  | cons d ds ih =>
    by_cases h : d.inRow y = true
    · rw [List.filter_cons_of_pos (p := fun d => Draw.inRow d y) h, paint_cons, paint_cons, ih]
    · rw [List.filter_cons_of_neg (p := fun d => Draw.inRow d y) h, paint_cons, ih]
      have : d.at y x = none := by simp [Draw.at, h]
      rw [this]; rfl

/-- A pixel of the composed frame (R124). -/
theorem composeFrame_get (s : State) (hy : y < 288) (hx : x < 224) :
    gridGet (composeFrame s) 0 y x = paint (drawList s) y x (gridGet s.fb 0 y x) := by
  rw [composeFrame, gridGet_tabulate _ _ hy hx, paint_filter_inRow]

/-- A tile draw writes its 8 x 8 block and nothing else (R126). -/
theorem drawTile_at (s : State) (o sx sy : Nat) :
    (drawTile s o sx sy).at y x =
      if y / 8 = sy ∧ x / 8 = sx then
        some (s.paletteEntry (paletteSlot (s.ramByte (palettePlane + o))) (s.tilePixel (s.ramByte (tilePlane + o)) (y % 8) (x % 8)))
      else none := by
  unfold Draw.at Draw.inRow Draw.inColumn drawTile
  by_cases h : y / 8 = sy ∧ x / 8 = sx
  · obtain ⟨h1, h2⟩ := h
    have e1 : ((y : Int) - 8 * (sy : Int)).toNat = y % 8 := by omega
    have e2 : ((x : Int) - 8 * (sx : Int)).toNat = x % 8 := by omega
    have c : (decide (8 * (sy : Int) ≤ y) && decide ((y : Int) < 8 * (sy : Int) + (8 : Nat)) &&
        (decide (8 * (sx : Int) ≤ x) && decide ((x : Int) < 8 * (sx : Int) + (8 : Nat)))) = true := by
      simp only [Bool.and_eq_true, decide_eq_true_eq]; omega
    simp only [c, if_true, h1, h2, and_self, e1, e2]
  · have c : (decide (8 * (sy : Int) ≤ y) && decide ((y : Int) < 8 * (sy : Int) + (8 : Nat)) &&
        (decide (8 * (sx : Int) ≤ x) && decide ((x : Int) < 8 * (sx : Int) + (8 : Nat)))) = false := by
      rw [← Bool.not_eq_true]
      simp only [Bool.and_eq_true, decide_eq_true_eq]; omega
    simp only [c, if_neg h]; rfl

/-- A sprite draw writes inside its 16 x 16 block, where the colour is not the key (R134, R135). -/
theorem drawSprite_at (s : State) (i : Nat) :
    (drawSprite s i).at y x =
      if spriteY (fetchSprite s i).posY ≤ y ∧ (y : Int) < spriteY (fetchSprite s i).posY + 16 ∧
          spriteX (fetchSprite s i).posX ≤ x ∧ (x : Int) < spriteX (fetchSprite s i).posX + 16 then
        (drawSprite s i).pixel (y - spriteY (fetchSprite s i).posY).toNat (x - spriteX (fetchSprite s i).posX).toNat
      else none := by
  unfold Draw.at Draw.inRow Draw.inColumn
  have e1 : (drawSprite s i).y0 = spriteY (fetchSprite s i).posY := rfl
  have e2 : (drawSprite s i).x0 = spriteX (fetchSprite s i).posX := rfl
  have e3 : (drawSprite s i).w = 16 := rfl
  have e4 : (drawSprite s i).h = 16 := rfl
  rw [e1, e2, e3, e4]
  simp only [Bool.and_eq_true, decide_eq_true_eq, Nat.cast_ofNat]
  by_cases h : spriteY (fetchSprite s i).posY ≤ y ∧ (y : Int) < spriteY (fetchSprite s i).posY + 16 ∧
      spriteX (fetchSprite s i).posX ≤ x ∧ (x : Int) < spriteX (fetchSprite s i).posX + 16
  · rw [if_pos h, if_pos ⟨⟨h.1, h.2.1⟩, h.2.2.1, h.2.2.2⟩]
  · rw [if_neg h, if_neg fun c => h ⟨c.1.1, c.1.2, c.2.1, c.2.2⟩]

end Sys2Proof.Machine
end

