-- ==== Sys2Proof/Laws/Input.lean ====
section
/-! SUPPORT. Latch bits and key events: what setting a bit does, and everything a key event can do. -/

namespace Sys2Proof.Machine

/-- A bit of a byte with one bit set. -/
theorem setBit_getLsbD (v : Byte) (n : Nat) (b : Bool) (i : Nat) (hn : n < 8) :
    (setBit v n b).getLsbD i = if i = n then b else v.getLsbD i := by
  have one : ∀ j : Fin 8, ∀ m : Fin 8, ((1 : Byte) <<< m.val).getLsbD j.val = decide (j = m) := by decide
  by_cases hi : i < 8
  · have h := one ⟨i, hi⟩ ⟨n, hn⟩
    simp only [Fin.mk.injEq] at h
    unfold setBit
    cases b
    · rw [if_neg Bool.false_ne_true, BitVec.getLsbD_and, BitVec.getLsbD_not, h]
      by_cases e : i = n <;> simp only [e, hn, hi, decide_true, decide_false, Bool.not_true, Bool.not_false, Bool.and_true, Bool.and_false,
        if_true, if_false]
    · rw [if_pos rfl, BitVec.getLsbD_or, h]
      by_cases e : i = n <;> simp only [e, decide_true, decide_false, Bool.or_true, Bool.or_false, if_true, if_false]
  · rw [BitVec.getLsbD_of_ge _ _ (by omega), BitVec.getLsbD_of_ge _ _ (by omega), if_neg (by omega)]

/-- One bit of one latch set: a bit below bit 8, and in IN1 one that a key drives (R118). -/
def SetsOneBit (s t : State) : Prop :=
  ∃ l n b, n < 8 ∧ (l = .in1 → n = 4 ∨ n = 5 ∨ n = 6) ∧ t = s.setLatch l (setBit (s.latch l) n b)

/-- A key-down leaves the state or sets one bit of one latch (R119). -/
theorem keyDown_cases (s : State) (key : Key) : keyDown s key = s ∨ SetsOneBit s (keyDown s key) := by
  cases key with
  | unrecognised k => exact .inl rfl
  | service => exact .inl rfl
  | test => exact .inl rfl
  | up => exact .inr ⟨.in0, 0, false, by decide, by decide, rfl⟩
  | down => exact .inr ⟨.in0, 3, false, by decide, by decide, rfl⟩
  | left => exact .inr ⟨.in0, 1, false, by decide, by decide, rfl⟩
  | right => exact .inr ⟨.in0, 2, false, by decide, by decide, rfl⟩
  | coin1 => exact .inr ⟨.in0, 5, false, by decide, by decide, rfl⟩
  | coin2 => exact .inr ⟨.in0, 6, false, by decide, by decide, rfl⟩
  | start1 => exact .inr ⟨.in1, 5, false, by decide, by decide, rfl⟩
  | start2 => exact .inr ⟨.in1, 6, false, by decide, by decide, rfl⟩
  | credit => exact .inr ⟨.in0, 7, false, by decide, by decide, rfl⟩

/-- A key-up leaves the state or sets one bit of one latch (R120). -/
theorem keyUp_cases (s : State) (key : Key) : keyUp s key = s ∨ SetsOneBit s (keyUp s key) := by
  cases key with
  | unrecognised k => exact .inl rfl
  | service => exact .inr ⟨.in0, 4, _, by decide, by decide, rfl⟩
  | test => exact .inr ⟨.in1, 4, _, by decide, by decide, rfl⟩
  | up => exact .inr ⟨.in0, 0, true, by decide, by decide, rfl⟩
  | down => exact .inr ⟨.in0, 3, true, by decide, by decide, rfl⟩
  | left => exact .inr ⟨.in0, 1, true, by decide, by decide, rfl⟩
  | right => exact .inr ⟨.in0, 2, true, by decide, by decide, rfl⟩
  | coin1 => exact .inr ⟨.in0, 5, true, by decide, by decide, rfl⟩
  | coin2 => exact .inr ⟨.in0, 6, true, by decide, by decide, rfl⟩
  | start1 => exact .inr ⟨.in1, 5, true, by decide, by decide, rfl⟩
  | start2 => exact .inr ⟨.in1, 6, true, by decide, by decide, rfl⟩
  | credit => exact .inr ⟨.in0, 7, true, by decide, by decide, rfl⟩

end Sys2Proof.Machine
end

