-- ==== Sys2Proof/Laws/PerInstr.lean ====
section
/-! SUPPORT. What holds of every transaction as syntax: its word carries its opcode-table row's match under the row's mask. -/

namespace Sys2Proof.Laws.TableRow

/-- The word of the transaction matches the transaction's row of the opcode table. -/
def Statement (i : Instr) : Prop := encode i &&& i.op.mask = i.op.matchBits

/-- A word of an OP whose must-be-zero bits are clear matches the OP's row. -/
theorem of_clear (i : Instr) (hop : opField (encode i) = i.op.code) (h : encode i &&& i.op.mustBeZero = 0) : Statement i := by
  unfold Statement Op.mask
  rw [BitVec.and_or_distrib_left, h, show ∀ x : TxnWord, x ||| 0 = x from fun _ => BitVec.or_zero, show (0xF000000000 : TxnWord) = txnWord 0xF 0 0 0 from rfl]
  conv_lhs => rw [← txnWord_fields (encode i)]
  rw [txnWord_and, hop, Op.matchBits]
  have hk : i.op.code &&& 0xF = i.op.code := by cases i.op <;> rfl
  rw [hk, show ∀ x : BitVec 4, x &&& 0 = 0 from fun _ => BitVec.and_zero, show ∀ x : Word, x &&& 0 = 0 from fun _ => BitVec.and_zero,
    show ∀ x : Word, x &&& 0 = 0 from fun _ => BitVec.and_zero]

theorem zextByte_lt (v : Byte) : (zextByte v).toNat < 256 := by rw [zextByte_toNat]; exact v.isLt

theorem rd8 (addr : Word) : Statement (.rd8 addr) :=
  of_clear _ (by simp [encode, Instr.op, Op.code]) ((mustBeZero_clear .rd8 _).2 (by simp [encode]))

theorem wr8 (addr : Word) (val : Byte) : Statement (.wr8 addr val) :=
  of_clear _ (by simp [encode, Instr.op, Op.code]) ((mustBeZero_clear .wr8 _).2 (by simp [encode, zextByte_lt]))

theorem rd16 (addr : Word) : Statement (.rd16 addr) :=
  of_clear _ (by simp [encode, Instr.op, Op.code]) ((mustBeZero_clear .rd16 _).2 (by simp [encode]))

theorem wr16 (addr val : Word) : Statement (.wr16 addr val) :=
  of_clear _ (by simp [encode, Instr.op, Op.code]) ((mustBeZero_clear .wr16 _).2 (by simp [encode]))

theorem inp (port : Byte) : Statement (.inp port) :=
  of_clear _ (by simp [encode, Instr.op, Op.code]) ((mustBeZero_clear .inp _).2 (by simp [encode, zextByte_lt]))

theorem out (port val : Byte) : Statement (.out port val) :=
  of_clear _ (by simp [encode, Instr.op, Op.code]) ((mustBeZero_clear .out _).2 (by simp [encode, zextByte_lt]))

theorem keydn (key : Key) : Statement (.keydn key) :=
  of_clear _ (by simp [encode, Instr.op, Op.code]) ((mustBeZero_clear .keydn _).2 (by simp [encode]))

theorem keyup (key : Key) : Statement (.keyup key) :=
  of_clear _ (by simp [encode, Instr.op, Op.code]) ((mustBeZero_clear .keyup _).2 (by simp [encode]))

theorem compose : Statement .compose :=
  of_clear _ (by simp [encode, Instr.op, Op.code]) ((mustBeZero_clear .compose _).2 (by simp [encode]))

theorem irqchk : Statement .irqchk :=
  of_clear _ (by simp [encode, Instr.op, Op.code]) ((mustBeZero_clear .irqchk _).2 (by simp [encode]))

theorem decode : Statement .decode :=
  of_clear _ (by simp [encode, Instr.op, Op.code]) ((mustBeZero_clear .decode _).2 (by simp [encode]))

end Sys2Proof.Laws.TableRow
end

