-- ==== Sys2Proof/Laws/Rom.lean ====
section
/-! SUPPORT. The ROM load: which images fail, everything a load can do, and what the pieces of the decoders compute. -/

namespace Sys2Proof.Machine

/-- An image is reported if and only if it fails (R85, R145). -/
theorem mem_failingImages {r : RomImages} {x : RomName} : x ∈ failingImages r ↔ romFails r x = true := by
  unfold failingImages
  rw [List.mem_filter]
  exact ⟨fun h => h.2, fun h => ⟨by cases x <;> decide, h⟩⟩

theorem failingImages_nodup (r : RomImages) : (failingImages r).Nodup := List.Nodup.filter _ (by decide)

theorem romFails_some {r : RomImages} {x : RomName} {bytes : List Byte} (h : romImage r x = some bytes) :
    romFails r x = decide (bytes.length < romNeed x) := by simp [romFails, h]

theorem romFails_none {r : RomImages} {x : RomName} (h : romImage r x = none) : romFails r x = true := by simp [romFails, h]

/-- Everything a load can do (R84): the tables and RUN, or INACTIVE with the failing images reported and nothing else written. -/
theorem load_cases (s : State) :
    (failingImages s.roms = [] ∧ s.load = ((s.loadTables s.roms).enter .run).reply .nothing) ∨
    (failingImages s.roms ≠ [] ∧ s.load = (s.enter .inactive).reply (.loadFailures (failingImages s.roms))) := by
  unfold State.load
  split
  · exact .inl ⟨‹_›, rfl⟩
  · exact .inr ⟨‹_›, rfl⟩

theorem loadProgram_wf (r : RomImages) : Memory.wf 0x4000 (loadProgram r) = true := by
  apply Memory.wfFrom_ofBytes
  simp only [List.length_append, List.length_take]
  omega

/-- A pixel index of a strip byte as a number (R72). -/
theorem stripPixel_toNat (b : Byte) (q : Nat) :
    (stripPixel b q).toNat = 2 * (b.getLsbD (7 - q)).toNat + (b.getLsbD (3 - q)).toNat := by
  unfold stripPixel
  cases b.getLsbD (7 - q) <;> cases b.getLsbD (3 - q) <;> rfl

/-- No channel of a colour exceeds a byte (R76). -/
theorem weight_le (c : Byte) (n k : Nat) : weight c n k ≤ k := by unfold weight; split <;> omega

theorem red_le (c : Byte) : red c ≤ 255 := by
  have h1 := weight_le c 0 0x21
  have h2 := weight_le c 1 0x47
  have h3 := weight_le c 2 0x97
  unfold red; omega

theorem green_le (c : Byte) : green c ≤ 255 := by
  have h1 := weight_le c 3 0x21
  have h2 := weight_le c 4 0x47
  have h3 := weight_le c 5 0x97
  unfold green; omega

theorem blue_le (c : Byte) : blue c ≤ 255 := by
  have h1 := weight_le c 6 0x51
  have h2 := weight_le c 7 0xAE
  unfold blue; omega

/-- The pixel word of a colour as a number (R77). -/
theorem rgba_toNat (r g b : Byte) : (rgba r g b).toNat = r.toNat * 2 ^ 24 + g.toNat * 2 ^ 16 + b.toNat * 2 ^ 8 + 0xFF := by
  have h1 := append_toNat (r ++ g ++ b) (0xFF : Byte)
  have h2 := append_toNat (r ++ g) b
  have h3 := append_toNat r g
  have h4 : (0xFF : Byte).toNat = 0xFF := rfl
  have h : (rgba r g b).toNat = (r ++ g ++ b ++ (0xFF : Byte)).toNat := rfl
  omega

/-- Every pixel word the colour decoder makes is opaque (R77). -/
theorem rgba_opaque (r g b : Byte) : opaquePixel (rgba r g b) := by
  apply BitVec.eq_of_toNat_eq
  rw [BitVec.extractLsb'_toNat, rgba_toNat, Nat.shiftRight_zero]
  have h4 : (0xFF : BitVec 8).toNat = 0xFF := rfl
  omega

/-- The decoded palette table, entry by entry (R92). -/
theorem decodePalettes_get (colrom palrom : List Byte) {p k : Nat} (hp : p < 32) (hk : k < 4) :
    ((decodePalettes colrom palrom)[p])[k] = colour (romByte colrom (colourIndex palrom p k)) := by
  simp [decodePalettes]

end Sys2Proof.Machine
end

