-- ==== Sys2Proof/Tests/Slice0.lean ====
section
/-! SUPPORT. The model's own tests. Expected values are those of 95_test_vectors.md and opcode_table.json; the second half gives, for every
statement of Certificates/Slice0/Obligations.lean with hypotheses, concrete values that meet them. -/

namespace Sys2Proof.Tests

open Sys2Proof.Machine

/-! ## Small states -/

/-- Phase RUN; every palette black but palette 1, which is black, red, green, blue as in ROMSET A; tile 1 all index 3; the program-ROM bytes that
the bus vectors read. -/
def running : State :=
  { State.reset with
    phase := .run
    prog := [(0x123, 0x22), (0x3FFF, 0xC0)]
    tile := (Vector.replicate 256 (Vector.replicate 8 (Vector.replicate 8 0))).setIfInBounds 1 (Vector.replicate 8 (Vector.replicate 8 3))
    pal := (Vector.replicate 32 (Vector.replicate 4 0x000000FF)).setIfInBounds 1 ⟨#[0x000000FF, 0xFF0000FF, 0x00FF00FF, 0x0000FFFF], rfl⟩ }

/-- Phase COMPOSED; interrupts enabled, vector 0xCF. -/
def composed : State := { running with phase := .composed, ie := true, vec := 0xCF, fb := Vector.replicate 288 (Vector.replicate 224 0x000000FF) }

/-- An image of `n` bytes, every byte 0. -/
def image (n : Nat) : List Byte := List.replicate n 0

theorem image_length (n : Nat) : (image n).length = n := List.length_replicate

/-- Eight images of exactly their sizes, every byte 0. -/
def goodImages : RomImages :=
  ⟨some (image 4096), some (image 4096), some (image 4096), some (image 4096),
    some (image 32), some (image 256), some (image 4096), some (image 4096)⟩

/-- At construction, with good images. -/
def loadable : State := { State.reset with roms := goodImages }

/-- The images of V-ROM-28: the colour ROM missing, the tile ROM one byte short. -/
def badImages : RomImages := { goodImages with colrom := none, tilerom := some (image 4095) }

/-- An outcome is a next state for which `p` holds. -/
def nextWith (o : Host.Outcome State Fault Refusal) (p : State → Bool) : Bool :=
  match o with
  | .next t => p t
  | .fault _ => false
  | .refused _ => false

/-- An outcome is a refusal with a code. -/
def refusedWith (o : Host.Outcome State Fault Refusal) (c : Nat) : Bool :=
  match o with
  | .next _ => false
  | .fault _ => false
  | .refused r => decide (r.code = some c)

/-- A word is refused by the decoder: 16 for the OP, 17 for a must-be-zero field. -/
def rejectedWith (w : TxnWord) (c : Nat) : Bool :=
  match decodeWord w with
  | .ok _ => false
  | .error e => decide ((refusalOf e).code = some c)

/-- A word decodes to a transaction. -/
def decodesTo (w : TxnWord) (i : Instr) : Bool :=
  match decodeWord w with
  | .ok j => decide (j = i)
  | .error _ => false

/-! ## WellFormed: an ill-formed term for each check -/

theorem test_wf_keydn_key3_as_unrecognised : (Instr.keydn (.unrecognised 3)).wf = false := by decide
theorem test_wf_keyup_key10_as_unrecognised : (Instr.keyup (.unrecognised 10)).wf = false := by decide
theorem test_wf_keydn_key12 : (Instr.keydn (.unrecognised 12)).wf = true := by decide

/-! ## Decode (V-ENC-1 to V-ENC-21; opcode_table.json) -/

theorem test_decode_rd8 : decodesTo 0x1081230000 (.rd8 0x8123) = true := by decide
theorem test_decode_wr8 : decodesTo 0x2050000001 (.wr8 0x5000 0x01) = true := by decide
theorem test_decode_rd16 : decodesTo 0x304FFF0000 (.rd16 0x4FFF) = true := by decide
theorem test_decode_wr16 : decodesTo 0x404FFFBEEF (.wr16 0x4FFF 0xBEEF) = true := by decide
theorem test_decode_inp : decodesTo 0x5000000000 (.inp 0) = true := by decide
theorem test_decode_out : decodesTo 0x60000000CF (.out 0 0xCF) = true := by decide
theorem test_decode_keydn : decodesTo 0x7400000000 (.keydn .coin1) = true := by decide
theorem test_decode_keydn_unrecognised : decodesTo 0x7C00000000 (.keydn (.unrecognised 12)) = true := by decide
theorem test_decode_keyup : decodesTo 0x8A00000000 (.keyup .credit) = true := by decide
theorem test_decode_compose : decodesTo 0x9000000000 .compose = true := by decide
theorem test_decode_irqchk : decodesTo 0xA000000000 .irqchk = true := by decide
theorem test_decode_decode : decodesTo 0xB000000000 .decode = true := by decide
theorem test_decode_reserved_op :
    rejectedWith 0x0000000000 16 = true ∧ rejectedWith 0xC000000000 16 = true ∧ rejectedWith 0xF000000000 16 = true := by decide
theorem test_decode_must_be_zero :
    rejectedWith 0x1100000000 17 = true ∧ rejectedWith 0x2040000100 17 = true ∧ rejectedWith 0x5001000000 17 = true ∧
      rejectedWith 0x7000000001 17 = true := by decide

/-- The masks and matches of opcode_table.json. -/
theorem test_table_rows :
    Op.all.map (fun op => (op.mnemonic, op.mask, op.matchBits)) =
      [("RD8", 0xFF0000FFFF, 0x1000000000), ("WR8", 0xFF0000FF00, 0x2000000000), ("RD16", 0xFF0000FFFF, 0x3000000000),
        ("WR16", 0xFF00000000, 0x4000000000), ("IN", 0xFFFF00FFFF, 0x5000000000), ("OUT", 0xFFFF00FF00, 0x6000000000),
        ("KEYDN", 0xF0FFFFFFFF, 0x7000000000), ("KEYUP", 0xF0FFFFFFFF, 0x8000000000), ("COMPOSE", 0xFFFFFFFFFF, 0x9000000000),
        ("IRQCHK", 0xFFFFFFFFFF, 0xA000000000), ("DECODE", 0xFFFFFFFFFF, 0xB000000000)] := by decide

theorem test_pseudo_sprite :
    (Pseudo.sprite 1 0x06 1 96 100).expand.map encode = [0x204FF20006, 0x204FF30001, 0x2050620060, 0x2050630064] := by decide
theorem test_pseudo_tile_and_frame :
    (Pseudo.tile 0x040 1 1).expand.map encode = [0x2040400001, 0x2044400001] ∧ Pseudo.frame.expand.map encode = [0x9000000000, 0xA000000000] := by
  decide
theorem test_written : (Instr.wr8 0x5000 0x01).written = "WR8 20480, 1" ∧ (Instr.keydn .coin1).written = "KEYDN coin1" := by decide

/-! ## One step of each transaction -/

/-- V-BUS-1. -/
theorem test_rd8_rom_alias : nextWith (exec (.rd8 0x8123) running) (fun t => decide (t.resp = .byte 0x22)) = true := by decide
/-- V-BUS-6. -/
theorem test_rd8_sprite_positions_read_in1 :
    nextWith (exec (.rd8 0x5060) running) (fun t => decide (t.resp = .byte 0xFF)) = true := by decide
/-- V-BUS-15, V-BUS-12. -/
theorem test_wr8_ie_alias :
    nextWith (exec (.wr8 0xD000 0x01) running) (fun t => t.ie) = true ∧
      nextWith (exec (.wr8 0x5000 0xFE) { running with ie := true }) (fun t => !t.ie) = true := by decide
/-- V-BUS-16. -/
theorem test_wr8_sprite_position :
    nextWith (exec (.wr8 0x5062 0x64) running) (fun t => decide (t.sprpos[2] = 0x64 ∧ t.sprpos[3] = 0x00)) = true := by decide
/-- V-BUS-23. -/
theorem test_rd16_wraps : nextWith (exec (.rd16 0xFFFF) running) (fun t => decide (t.resp = .word 0x00FF)) = true := by decide
/-- V-BUS-21: the read, with the high byte in RAM. -/
theorem test_rd16_across_regions :
    nextWith (exec (.rd16 0x3FFF) { running with ram := [(0, 0x12)] }) (fun t => decide (t.resp = .word 0x12C0)) = true := by decide
/-- V-BUS-19. -/
theorem test_wr16_ram_then_ie :
    nextWith (exec (.wr16 0x4FFF 0xBEEF) { running with ie := true }) (fun t => decide (t.ram = [(0xFFF, 0xEF)]) && !t.ie) = true := by decide
/-- V-BUS-22. -/
theorem test_wr16_second_byte_only :
    nextWith (exec (.wr16 0x505F 0x6400) running) (fun t => decide (t.sprpos[0] = 0x64 ∧ t.sprpos[1] = 0x00)) = true := by decide
/-- V-BUS-25. -/
theorem test_inp : nextWith (exec (.inp 0xFF) running) (fun t => decide (t.resp = .byte 0x00)) = true := by decide
/-- V-BUS-26. -/
theorem test_out_port0 : nextWith (exec (.out 0 0xCF) running) (fun t => decide (t.vec = 0xCF)) = true := by decide
/-- V-BUS-27. -/
theorem test_out_port5 : nextWith (exec (.out 5 0x42) running) (fun t => decide (t.vec = 0x00)) = true := by decide
/-- V-IN-14. -/
theorem test_keydn_second_button :
    nextWith (exec (.keydn .coin1) { running with in0 := 0xFE }) (fun t => decide (t.in0 = 0xDE ∧ t.in1 = 0xFF)) = true := by decide
/-- V-IN-9. -/
theorem test_keydn_toggle : nextWith (exec (.keydn .service) running) (fun t => decide (t.in0 = 0xFF ∧ t.in1 = 0xFF)) = true := by decide
/-- V-IN-7. -/
theorem test_keyup_momentary : nextWith (exec (.keyup .up) { running with in0 := 0xFE }) (fun t => decide (t.in0 = 0xFF)) = true := by decide
/-- V-IN-12. -/
theorem test_keyup_toggle : nextWith (exec (.keyup .test) running) (fun t => decide (t.in0 = 0xFF ∧ t.in1 = 0xEF)) = true := by decide
/-- V-COMP-1 and V-COMP-17: tile 1 in palette 1 at offset 0x040 is blue at (216, 16), and (215, 16) is another tile's. -/
theorem test_compose_tile :
    nextWith (exec .compose { running with ram := [(0x040, 1), (0x440, 1)] }) (fun t =>
      decide (t.phase = .composed ∧ gridGet t.fb 0 16 216 = 0x0000FFFF ∧ gridGet t.fb 0 16 215 = 0x000000FF)) = true := by
  decide +kernel
/-- V-COMP-11e with sprite 1 all index 1 (red) in palette 1: columns 1 to 15 at x 0 to 14, from row 256. -/
theorem test_compose_sprite_clipped :
    nextWith (exec .compose { running with
        ram := [(0xFF0, 0x04), (0xFF1, 0x21)]
        sprpos := ⟨#[240, 16, 0, 0, 0, 0, 0, 0, 0, 0, 0, 0, 0, 0, 0, 0], rfl⟩
        sprite := Vector.replicate 64 (Vector.replicate 16 (Vector.replicate 16 1)) }) (fun t =>
      decide (gridGet t.fb 0 256 14 = 0xFF0000FF ∧ gridGet t.fb 0 256 15 = 0x000000FF ∧ gridGet t.fb 0 255 14 = 0x000000FF)) = true := by
  decide +kernel
/-- V-IRQ-2. -/
theorem test_irqchk_enabled : nextWith (exec .irqchk composed) (fun t => decide (t.resp = .irqRequest 0xCF ∧ t.phase = .run)) = true := by decide
/-- V-IRQ-1. -/
theorem test_irqchk_disabled :
    nextWith (exec .irqchk { composed with ie := false }) (fun t => decide (t.resp = .nothing)) = true := by decide
/-- V-ROM-28. -/
theorem test_decode_failures :
    nextWith (exec .decode { State.reset with roms := badImages }) (fun t =>
      decide (t.phase = .inactive ∧ t.resp = .loadFailures [.colrom, .tilerom])) = true := by
  decide +kernel
/-- V-ROM-26, for the phase. -/
theorem test_decode_good : nextWith (exec .decode loadable) (fun t => decide (t.phase = .run)) = true := by decide +kernel

/-! ## The decoders (V-ROM) -/

/-- V-ROM-7, V-ROM-9. -/
theorem test_strip_pixels :
    (List.range 4).map (stripPixel 0x81) = [2, 0, 0, 1] ∧ (List.range 4).map (stripPixel 0x12) = [0, 0, 1, 2] := by decide
/-- V-ROM-20, at tile 0. -/
theorem test_tile_decode :
    (List.range 8).map (fun r => gridGet (decodeTile ([0xFF] ++ List.replicate 7 0 ++ [0x81]) 0) 0 r 7) = [2, 0, 0, 1, 3, 3, 3, 3] := by
  decide +kernel
/-- V-ROM-22, at sprite 0: columns 15 and 7. -/
theorem test_sprite_decode :
    let rom : List Byte := [0xFF] ++ List.replicate 7 0 ++ [0xFF] ++ List.replicate 23 0 ++ [0xFF]
    (List.range 16).map (fun r => gridGet (decodeSprite rom 0) 0 r 15) = [3, 3, 3, 3, 0, 0, 0, 0, 0, 0, 0, 0, 3, 3, 3, 3] ∧
      (List.range 16).map (fun r => gridGet (decodeSprite rom 0) 0 r 7) = [0, 0, 0, 0, 0, 0, 0, 0, 0, 0, 0, 0, 3, 3, 3, 3] := by
  decide +kernel
/-- V-ROM-15, V-ROM-16, V-ROM-17. -/
theorem test_colour : [0xA5, 0x5A, 0x96].map colour = [0xB897AEFF, 0x476851FF, 0xDE47AEFF] := by decide
/-- V-ROM-24. -/
theorem test_palette_decode :
    (decodePalettes [0x00, 0x07, 0x38, 0xC0] [0, 0, 0, 0, 0x00, 0x01, 0x02, 0x13])[1].toList = [0x000000FF, 0xFF0000FF, 0x00FF00FF, 0x0000FFFF] := by
  decide +kernel

/-! ## Phases (V-EXC) -/

/-- V-EXC-1 to V-EXC-4. -/
theorem test_refused_unloaded :
    refusedWith (step (State.reset.withFetchWord 40 0x1000000000)) 21 = true ∧ refusedWith (step (State.reset.withFetchWord 40 0x9000000000)) 20 = true ∧
      refusedWith (step (State.reset.withFetchWord 40 0x7000000000)) 21 = true ∧
      refusedWith (step (State.reset.withFetchWord 40 0xC000000000)) 16 = true := by decide
/-- V-EXC-5 to V-EXC-8, V-EXC-12. -/
theorem test_refused_out_of_phase :
    refusedWith (step (running.withFetchWord 40 0xA000000000)) 20 = true ∧ refusedWith (step (running.withFetchWord 40 0xB000000000)) 19 = true ∧
      refusedWith (step (composed.withFetchWord 40 0x1000000000)) 21 = true ∧ refusedWith (step (composed.withFetchWord 40 0x9000000000)) 20 = true ∧
      refusedWith (step (composed.withFetchWord 40 0xD000000000)) 16 = true := by decide
/-- V-EXC-9. -/
theorem test_key_while_composed :
    nextWith (step (composed.withFetchWord 40 0x7000000000)) (fun t => decide (t.phase = .composed ∧ t.in0 = 0xFE)) = true := by decide
/-- V-EXC-10, V-EXC-11. -/
theorem test_refused_inactive :
    refusedWith (step ({ State.reset with phase := .inactive }.withFetchWord 40 0xB000000000)) 18 = true ∧
      refusedWith (step ({ State.reset with phase := .inactive }.withFetchWord 40 0x1100000000)) 17 = true := by decide

/-! ## Values that meet the hypotheses of each statement

Named after the statement. Where a statement has clauses, there is a value for each, at the ends of its range. -/

theorem witness_DecodeOfEncodeIsTheTransaction :
    (Instr.wr16 0xFFFF 0xFFFF).wf = true ∧ (Instr.keydn (.unrecognised 11)).wf = true ∧ (Instr.keyup (.unrecognised 15)).wf = true := by decide

theorem witness_EncodeOfDecodeIsTheWord : decodeWord 0x60FF00FF = .error (.reservedOp 0x60FF00FF) ∧ decodeWord 0x6000FF00FF = .ok (.out 0xFF 0xFF) := by
  decide

/-- A word with a must-be-zero field set for each kind of row of R65. -/
theorem reserved_field_words :
    Spec.reservedFieldSet 0x1100000000 ∧ Spec.reservedFieldSet 0x2000000100 ∧ Spec.reservedFieldSet 0x3000000001 ∧
      Spec.reservedFieldSet 0x4F00000000 ∧ Spec.reservedFieldSet 0x5001000000 ∧ Spec.reservedFieldSet 0x6000008000 ∧
      Spec.reservedFieldSet 0x8000010000 ∧ Spec.reservedFieldSet 0xB100000000 :=
  ⟨.inl ⟨by decide, .inl (by decide)⟩, .inr (.inl ⟨by decide, .inr (by decide)⟩), .inr (.inr (.inl ⟨by decide, .inr (by decide)⟩)),
    .inr (.inr (.inr (.inl ⟨by decide, by decide⟩))), .inr (.inr (.inr (.inr (.inl ⟨by decide, .inr (.inl (by decide))⟩)))),
    .inr (.inr (.inr (.inr (.inr (.inl ⟨by decide, .inr (.inr (by decide))⟩))))),
    .inr (.inr (.inr (.inr (.inr (.inr (.inl ⟨by decide, .inl (by decide)⟩)))))),
    .inr (.inr (.inr (.inr (.inr (.inr (.inr ⟨by decide, .inl (by decide)⟩))))))⟩

theorem witness_ReservedIllegalAndIgnoredEncodings :
    ({ running with pending := [0x1100000000] } : State).pending = [0x1100000000] ∧ Spec.reservedFieldSet 0x1100000000 ∧
      Spec.op 0x0FFFFFFFFF = 0 ∧ 12 ≤ Spec.op 0xC000000000 ∧ 12 ≤ Spec.op 0xFFFFFFFFFF ∧ running.phase = .run ∧ composed.phase = .composed ∧
      11 ≤ (11 : BitVec 4).toNat ∧ 11 ≤ (15 : BitVec 4).toNat ∧ (1 : Byte) ≠ 0 ∧ (0xFF : Byte) ≠ 0 ∧ 0x5100 ≤ Spec.ea 0x5100 ∧
      0x5100 ≤ Spec.ea 0xFFFF := ⟨rfl, reserved_field_words.1, by decide⟩

theorem witness_StepPerformsTheDecodedTransaction :
    ({ running with pending := [0x60000000CF, 0x9000000000] } : State).pending = [0x60000000CF, 0x9000000000] ∧
      decodeWord 0x60000000CF = .ok (.out 0 0xCF) := ⟨rfl, by decide⟩

theorem witness_IssuedWordIsPerformedNext : decodeTableWord 40 0x2040000001 = some (.wr8 0x4000 0x01) := by decide

theorem witness_IdleStepChangesNothing : State.reset.pending = [] := rfl

theorem witness_AdmissionTableHolds :
    Spec.admissionCode (.rd8 0) .unloaded = some 21 ∧ Spec.admissionCode .decode .unloaded = none ∧ Spec.admissionCode (.rd8 0) .run = none ∧
      Spec.admissionCode (.keyup .up) .composed = none ∧ Spec.admissionCode .irqchk .composed = none ∧
      Spec.admissionCode .compose .run = none ∧ Spec.admissionCode .decode .inactive = some 18 := by decide

/-- One word to which two codes apply, and one to which none does. -/
theorem witness_StepReportsTheLowestRefusal :
    ({ State.reset with phase := .inactive, pending := [0x1100000000] } : State).pending = [0x1100000000] ∧
      Spec.refusalApplies 0x1100000000 .inactive 17 ∧ Spec.refusalApplies 0x1100000000 .inactive 18 ∧
      ∀ c, ¬ Spec.refusalApplies 0x1000000000 .run c := by
  refine ⟨rfl, .inr (.inl ⟨rfl, .inl ⟨by decide, .inl (by decide)⟩⟩), .inr (.inr (.inl ⟨rfl, rfl⟩)), ?_⟩
  have hr : ¬ Spec.reservedFieldSet 0x1000000000 := by unfold Spec.reservedFieldSet; decide
  rintro c (⟨-, h⟩ | ⟨-, h⟩ | ⟨-, h⟩ | ⟨-, h, -⟩ | ⟨-, h⟩ | ⟨-, h⟩)
  · exact absurd h (by decide)
  · exact hr h
  · cases h
  · exact absurd h (by decide)
  · exact absurd h (by decide)
  · exact absurd h (by decide)

theorem witness_ConstructionMeetsTheInvariant : Params.wf Params.default := rfl

theorem running_opaque : ∀ p k, opaquePixel (running.paletteEntry p k) := by
  unfold opaquePixel
  decide +kernel

/-- A state in RUN that meets the invariant, with a step that answers a next state. -/
theorem witness_StepKeepsTheInvariant :
    Inv { running with pending := [0x2040000001] } ∧
      nextWith (step { running with pending := [0x2040000001] }) (fun t => decide (t.ram = [(0, 1)])) = true := by
  refine ⟨⟨rfl, by decide, rfl, fun _ => running_opaque, fun h => ?_⟩, by decide⟩
  cases h

/-- A state in COMPOSED that meets the invariant. -/
theorem witness_StepKeepsTheInvariant_composed : Inv composed := by
  refine ⟨rfl, by decide, rfl, fun _ => running_opaque, fun _ y x hy hx => ?_⟩
  simp [gridGet, composed, hy, hx, opaquePixel]

/-- A run that goes on, from a state that is no longer UNLOADED. -/
theorem witness_RunsNeverMutateTheTables :
    nextWith (Host.Core.run Sys2Proof.core 2 { running with pending := [0x2040000001, 0x60000000CF] })
      (fun t => decide (t.vec = 0xCF)) = true ∧ running.phase ≠ .unloaded := ⟨by decide, by decide⟩

/-- Each field is written by some transaction. -/
theorem witness_FieldsAreWrittenOnlyByTheirTransactions :
    nextWith (exec (.keydn .up) running) (fun t => decide (t.in0 ≠ running.in0)) = true ∧
      nextWith (exec (.keydn .start1) running) (fun t => decide (t.in1 ≠ running.in1)) = true ∧
      nextWith (exec (.wr8 0x4000 1) running) (fun t => decide (t.ram ≠ running.ram)) = true ∧
      nextWith (exec (.wr16 0x5000 1) running) (fun t => decide (t.ie ≠ running.ie)) = true ∧
      nextWith (exec (.wr8 0x5001 1) running) (fun t => decide (t.se ≠ running.se)) = true ∧
      nextWith (exec (.wr8 0x5003 1) running) (fun t => decide (t.flip ≠ running.flip)) = true ∧
      nextWith (exec (.wr8 0x506F 1) running) (fun t => decide (t.sprpos[15] ≠ running.sprpos[15])) = true ∧
      nextWith (exec (.out 0 1) running) (fun t => decide (t.vec ≠ running.vec)) = true ∧
      nextWith (exec .irqchk composed) (fun t => decide (t.phase ≠ composed.phase)) = true := by decide

theorem witness_FieldsAreWrittenOnlyByTheirTransactions_large :
    nextWith (exec .compose running) (fun t => decide (gridGet t.fb 0 0 0 ≠ gridGet running.fb 0 0 0)) = true ∧
      nextWith (exec .decode loadable) (fun t => decide (t.paletteEntry 0 0 ≠ loadable.paletteEntry 0 0)) = true := by
  decide +kernel

/-- The ends of the regions of R45, through the alias as well. -/
theorem witness_ByteReadFollowsTheMap :
    running.phase = .run ∧ Spec.ea 0x3FFF < 0x4000 ∧ ¬ Spec.ea 0x4000 < 0x4000 ∧ Spec.ea 0x4FFF < 0x5000 ∧ ¬ Spec.ea 0x5000 < 0x5000 ∧
      Spec.ea 0x503F < 0x5040 ∧ ¬ Spec.ea 0x5040 < 0x5040 ∧ Spec.ea 0x507F < 0x5080 ∧ ¬ Spec.ea 0x5080 < 0x5080 ∧
      Spec.ea 0x50BF < 0x50C0 ∧ ¬ Spec.ea 0x50C0 < 0x50C0 ∧ Spec.ea 0x8000 = 0 ∧ Spec.ea 0xFFFF = 0x7FFF := by decide

theorem witness_HighAddressBitIsIgnored : running.phase = .run := rfl

/-- The ends of the writable ranges of R45. -/
theorem witness_ByteWriteFollowsTheMap :
    running.phase = .run ∧ Memory.wf 0x1000 running.ram = true ∧ Spec.ea 0x4000 - 0x4000 = 0 ∧ Spec.ea 0xCFFF - 0x4000 = 0xFFF ∧
      Spec.ea 0x5000 = 0x5000 ∧ Spec.ea 0xD001 = 0x5001 ∧ Spec.ea 0x5003 = 0x5003 ∧ Spec.ea 0x5060 = 0x5060 + 0 ∧
      Spec.ea 0xD06F = 0x5060 + 15 ∧ ¬ (0x4000 ≤ Spec.ea 0x3FFF) := by decide

theorem witness_RamWriteReadsBack :
    running.phase = .run ∧ Memory.wf 0x1000 running.ram = true ∧ 0x4000 ≤ Spec.ea 0x4000 ∧ Spec.ea 0x4000 < 0x5000 ∧
      0x4000 ≤ Spec.ea 0x4FFF ∧ Spec.ea 0x4FFF < 0x5000 ∧ Spec.ea 0x5000 ≠ Spec.ea 0x4FFF := by decide

theorem witness_ByteWriteTwiceIsOnce : running.phase = .run ∧ Memory.wf 0x1000 running.ram = true := by decide

/-- The last address, whose next is 0. -/
theorem witness_WordReadIsTwoByteReads : running.phase = .run ∧ ((0xFFFF : Word).toNat + 1) % 0x10000 = 0 := by decide

theorem witness_WordWriteIsTwoByteWrites : running.phase = .run := rfl

theorem witness_WordWriteOrderIsUnobservable : running.phase = .run ∧ Memory.wf 0x1000 running.ram = true := by decide

theorem witness_PortInputReturnsZero : running.phase = .run := rfl

theorem witness_PortOutputLatchesTheVector : running.phase = .run := rfl

theorem witness_KeyDownPressesTheButton : running.phase = .run ∧ composed.phase = .composed := ⟨rfl, rfl⟩

theorem witness_KeyUpReleasesOrToggles : running.phase = .run ∧ composed.phase = .composed := ⟨rfl, rfl⟩

theorem witness_RepeatedKeyEvents : running.phase = .run ∧ composed.phase = .composed := ⟨rfl, rfl⟩

theorem witness_ComposeRunsThePixelLoops : running.phase = .run := rfl

/-- Two states that agree on what COMPOSE reads and differ in scratch RAM, the input latches and the old frame. -/
theorem witness_ComposeReadsOnlyItsInputs :
    let t : State := { running with ram := [(0x800, 1), (0xFEF, 2)], in0 := 0, fb := composed.fb }
    t ≠ running ∧ t.phase = .run ∧ (∀ o, o < 0x800 → Memory.read running.ram o = Memory.read t.ram o) ∧
      (∀ o, 0xFF0 ≤ o → o < 0x1000 → Memory.read running.ram o = Memory.read t.ram o) ∧ running.sprpos = t.sprpos ∧ running.tile = t.tile ∧
      running.sprite = t.sprite ∧ running.pal = t.pal ∧ running.tkey = t.tkey := by
  refine ⟨fun h => absurd (congrArg State.in0 h) (by decide), rfl, fun o ho => ?_, fun o h1 h2 => ?_, rfl, rfl, rfl, rfl, rfl⟩
  · simp only [Memory.read, if_neg (show ¬ 0x800 = o by omega), if_neg (show ¬ 0xFEF = o by omega)]; rfl
  · simp only [Memory.read, if_neg (show ¬ 0x800 = o by omega), if_neg (show ¬ 0xFEF = o by omega)]; rfl

/-- A frame with a pixel of a sprite slot and a pixel of the tile layer only. -/
theorem witness_LowestSpriteSlotIsOnTop :
    let s : State := { running with sprpos := ⟨#[240, 16, 0, 0, 0, 0, 0, 0, 0, 0, 0, 0, 0, 0, 0, 0], rfl⟩, ram := [(0xFF1, 1)],
                                    sprite := Vector.replicate 64 (Vector.replicate 16 (Vector.replicate 16 1)) }
    s.phase = .run ∧ Spec.spriteLayer s 0 256 0 = some 0xFF0000FF ∧ Spec.spriteLayer s 0 256 15 = none ∧ Spec.spriteLayer s 7 287 223 = none := by
  decide +kernel

theorem witness_TilePassDrawsEachPixelOnce : (0 : Nat) < 288 ∧ (287 : Nat) < 288 ∧ (0 : Nat) < 224 ∧ (223 : Nat) < 224 := by decide

/-- Both ends of each range of X positions. -/
theorem witness_SpritePositionAndClipping :
    (30 : Byte).toNat ≤ 30 ∧ ¬ (31 : Byte).toNat ≤ 30 ∧ 240 ≤ (240 : Byte).toNat ∧ ¬ 240 ≤ (239 : Byte).toNat ∧
      spriteX 30 = 209 ∧ spriteX 31 = 208 ∧ spriteX 240 = -1 ∧ spriteX 239 = 0 ∧ spriteY 0 = 272 ∧ spriteY 255 = 17 := by decide

theorem witness_OffScreenSpriteIsNotDrawn :
    running.phase = .run ∧ Memory.wf 0x1000 running.ram = true ∧ running.sprpos[2 * 7]? = some 0 ∧
      ({ running with sprpos := Vector.replicate 16 255 } : State).sprpos[2 * 0]? = some 255 := by decide

/-- `witness_StepKeepsTheInvariant_composed` is a state of the second clause. -/
theorem witness_OutputBytesFollowTheContract :
    Inv composed ∧ composed.phase = .composed ∧ (287 : Nat) < 288 ∧ (223 : Nat) < 224 ∧ (3 : Nat) < 4 ∧ 4 * (287 * 224 + 223) + 3 = 258047 :=
  ⟨witness_StepKeepsTheInvariant_composed, by decide⟩

theorem witness_IrqCheckRequestsWhenEnabled :
    composed.phase = .composed ∧ running.phase ≠ .composed ∧ ({ running with phase := .inactive } : State).phase = .inactive := by decide

theorem witness_OnlyIrqCheckRequests : nextWith (exec .irqchk composed) (fun t => decide (t.resp = .irqRequest 0xCF)) = true := by decide

/-- A span that writes the enable bit through WR16 and through an alias, and a key event before the interrupt check. -/
theorem witness_FrameRequestsWithTheSpansLastValues :
    running.phase = .run ∧ (∀ i ∈ [Instr.out 0 0xCF, .wr8 0xD000 0x00, .wr16 0x4FFF 0x0100, .keyup .test], inSpan i = true) ∧
      (∀ i ∈ [Instr.keydn .up], isKey i = true) := by decide

theorem goodImages_good :
    Spec.GoodImages goodImages (image 4096) (image 4096) (image 4096) (image 4096)
      (image 32) (image 256) (image 4096) (image 4096) := by
  exact ⟨rfl, by simp [image_length], by simp [image_length], by simp [image_length], by simp [image_length], by simp [image_length],
    by simp [image_length], by simp [image_length], by simp [image_length]⟩

theorem witness_DecodeLoadsTheProgramRom :
    loadable.phase = .unloaded ∧ Spec.GoodImages loadable.roms (image 4096) (image 4096) (image 4096)
      (image 4096) (image 32) (image 256) (image 4096) (image 4096) :=
  ⟨rfl, goodImages_good⟩

theorem witness_DecodeFillsTheTileTable : loadable.phase = .unloaded ∧ (∃ p0 p1 p2 p3 c p t s, Spec.GoodImages loadable.roms p0 p1 p2 p3 c p t s) :=
  ⟨rfl, _, _, _, _, _, _, _, _, goodImages_good⟩

theorem witness_DecodeFillsTheSpriteTable : loadable.phase = .unloaded ∧ (∃ p0 p1 p2 p3 c p t s, Spec.GoodImages loadable.roms p0 p1 p2 p3 c p t s) :=
  ⟨rfl, _, _, _, _, _, _, _, _, goodImages_good⟩

theorem witness_DecodeFillsThePaletteTable :
    loadable.phase = .unloaded ∧ (∃ p0 p1 p2 p3 c p t s, Spec.GoodImages loadable.roms p0 p1 p2 p3 c p t s) :=
  ⟨rfl, _, _, _, _, _, _, _, _, goodImages_good⟩

/-- A block in the corner of a tile, and a pixel in it and one beside it. -/
theorem witness_StripDecodeWritesItsBlock :
    0 + 8 ≤ 8 ∧ 4 + 4 ≤ 8 ∧ (7 < 8 ∧ 4 ≤ 7 ∧ 7 < 4 + 4 ∧ 0 ≤ 7 ∧ 7 < 0 + 8) ∧ ¬ (4 ≤ 3 ∧ 3 < 4 + 4 ∧ 0 ≤ 7 ∧ 7 < 0 + 8) := by decide

/-- A missing image and a short one. -/
theorem witness_LoadFailureMakesItInactive :
    ({ State.reset with roms := badImages } : State).phase = .unloaded ∧ Spec.missingOrShort badImages .colrom ∧
      Spec.missingOrShort badImages .tilerom := by
  refine ⟨rfl, fun x h => ?_, fun x h => ?_⟩
  · exact absurd h (by simp [badImages])
  · obtain rfl : image 4095 = x := by simpa [badImages] using h
    rw [image_length]
    decide

/-- Good images, one of them longer than its size; and images that fail. -/
theorem witness_OverlongImagesUseTheirPrefix :
    loadable.phase = .unloaded ∧ (∃ x, Spec.missingOrShort badImages x) ∧
      Spec.GoodImages { goodImages with tilerom := some (image 4097) } (image 4096) (image 4096)
        (image 4096) (image 4096) (image 32) (image 256) (image 4097)
        (image 4096) := by
  refine ⟨rfl, ⟨.colrom, fun x h => absurd h (by simp [badImages])⟩, ?_⟩
  exact ⟨rfl, by simp [image_length], by simp [image_length], by simp [image_length], by simp [image_length], by simp [image_length],
    by simp [image_length], by simp [image_length], by simp [image_length]⟩

theorem witness_SpritePseudoSetsTheSlot : running.phase = .run ∧ Memory.wf 0x1000 running.ram = true := by decide

end Sys2Proof.Tests
end

section
/-! The scope statements: a step performs the oldest pending transaction, an issued word is that one, and an idle step does nothing
(00_scope.md R3, R18). -/

namespace Sys2Proof.Machine

/-- A table word decodes exactly when its low `nbits` bits are a 40-bit word that `decodeWord` accepts. -/
theorem decodeTableWord_eq_some_iff {nbits w : Nat} {i : Instr} :
    decodeTableWord nbits w = some i ↔ w % 2 ^ nbits < 2 ^ 40 ∧ decodeWord (BitVec.ofNat 40 (w % 2 ^ nbits)) = .ok i := by
  unfold decodeTableWord
  split
  next hlt =>
    rw [and_iff_right hlt]
    cases decodeWord (BitVec.ofNat 40 (w % 2 ^ nbits)) <;> simp
  next hge => exact iff_of_false nofun fun h => hge h.1

@[simp] theorem State.withFetchWord_pending (s : State) (nbits w : Nat) :
    (s.withFetchWord nbits w).pending = BitVec.ofNat 40 (w % 2 ^ nbits) :: s.pending := rfl

/-- Issuing a word changes nothing but the pending transactions: with the old ones put back, the state is the one before. -/
theorem State.withFetchWord_restore_pending (s : State) (nbits w : Nat) :
    { s.withFetchWord nbits w with pending := s.pending } = s := rfl

/-- The step after a word is issued performs its transaction on the state the word was issued in, at every word width. -/
theorem step_withFetchWord {nbits w : Nat} {i : Instr} (s : State) (h : decodeTableWord nbits w = some i) :
    step (s.withFetchWord nbits w) = exec i s := by
  obtain ⟨-, hdecode⟩ := decodeTableWord_eq_some_iff.1 h
  rw [step_of_ok (s.withFetchWord_pending nbits w) hdecode, State.withFetchWord_restore_pending]

end Sys2Proof.Machine

namespace Sys2Proof.Proofs

open Sys2Proof.Machine

/-- Settles O5, by the step equation for a pending word that decodes. -/
theorem stepPerformsTheDecodedTransaction : Obligations.StepPerformsTheDecodedTransaction :=
  fun _ _ _ _ hpending hdecode => step_of_ok hpending hdecode

/-- Settles O6: the issued word stands in front of the pending ones, and the step that takes it leaves the state it was issued in. -/
theorem issuedWordIsPerformedNext : Obligations.IssuedWordIsPerformedNext :=
  fun s _ _ hdecode => step_withFetchWord s hdecode

/-- Settles O7, by the step equation for an empty list of pending transactions. -/
theorem idleStepChangesNothing : Obligations.IdleStepChangesNothing :=
  fun _ hpending => step_of_nil hpending

end Sys2Proof.Proofs
end

section
/-! The invariant (10_state.md R24, R25, R34; R77, R130): it holds at construction, each operation on the state keeps it, and so does each
transaction. -/

namespace Sys2Proof.Machine

variable {s t : State}

/-! ## Construction -/

/-- Before DECODE the invariant says something of the RAM only: the program ROM lists nothing, and there is no palette and no frame yet. -/
theorem inv_construct {p : Params} (h : Params.wf p) : Inv (State.construct p) where
  ram_wf := h
  prog_wf := rfl
  in1_fixed := show (0xFF : Byte) &&& 0x8F = 0x8F by decide
  pal_opaque := nofun
  fb_opaque := nofun

theorem wf_default : Params.wf Params.default := rfl

/-! ## Updates that leave program ROM, palettes, phase and frame -/

theorem paletteEntry_congr (h : t.pal = s.pal) : t.paletteEntry = s.paletteEntry := by
  funext p k
  simp only [State.paletteEntry, h]

/-- What an update must show of the RAM and of IN1 when it leaves the other fields that the invariant reads. -/
theorem Inv.of_eq (h : Inv s) (hram : Memory.wf 0x1000 t.ram = true) (hin1 : t.in1 &&& 0x8F = 0x8F) (hprog : t.prog = s.prog)
    (hpal : t.pal = s.pal) (hphase : t.phase = s.phase) (hfb : t.fb = s.fb) : Inv t where
  ram_wf := hram
  prog_wf := hprog ▸ h.prog_wf
  in1_fixed := hin1
  pal_opaque := by rw [hphase, paletteEntry_congr hpal]; exact h.pal_opaque
  fb_opaque := by rw [hphase, hfb]; exact h.fb_opaque

theorem Inv.reply (h : Inv s) (r : Response) : Inv (s.reply r) := h.of_eq h.ram_wf h.in1_fixed rfl rfl rfl rfl

theorem Inv.of_pending (h : Inv s) (ws : List TxnWord) : Inv { s with pending := ws } := h.of_eq h.ram_wf h.in1_fixed rfl rfl rfl rfl

theorem Inv.busWrite8 (h : Inv s) (addr : Word) (v : Byte) : Inv (busWrite8 s addr v) := by
  obtain ⟨hphase, hprog, -, -, hin1, -, -, -, hpal, hfb, -⟩ := busWrite8_frame s addr v
  exact h.of_eq (busWrite8_wf s addr v h.ram_wf) (hin1 ▸ h.in1_fixed) hprog hpal hphase hfb

theorem Inv.busWrite16 (h : Inv s) (addr v : Word) : Inv (busWrite16 s addr v) := (h.busWrite8 _ _).busWrite8 _ _

theorem Inv.portWrite (h : Inv s) (port val : Byte) : Inv (portWrite s port val) := by
  unfold Machine.portWrite
  split
  · exact h.of_eq h.ram_wf h.in1_fixed rfl rfl rfl rfl
  · exact h

/-! ## Key events -/

/-- Bits 4, 5 and 6, the bits of IN1 that keys drive, are outside the mask of those that none drives (R34). -/
theorem setBit_and_undriven (v : Byte) {n : Nat} (b : Bool) (hn : n = 4 ∨ n = 5 ∨ n = 6) : setBit v n b &&& 0x8F = v &&& 0x8F := by
  have hdriven : (0x8F : Byte).getLsbD n = false := by rcases hn with rfl | rfl | rfl <;> rfl
  apply BitVec.eq_of_getLsbD_eq
  intro i _
  rw [BitVec.getLsbD_and, BitVec.getLsbD_and, setBit_getLsbD v n b i (by omega)]
  split
  next hi => rw [hi, hdriven, Bool.and_false, Bool.and_false]
  next => rfl

theorem Inv.setsOneBit (h : Inv s) (hst : SetsOneBit s t) : Inv t := by
  obtain ⟨l, n, b, -, hdriven, rfl⟩ := hst
  refine h.of_eq (by simpa using h.ram_wf) ?_ (by simp) (by simp) (by simp) (by simp)
  cases l with
  | in0 => exact h.in1_fixed
  | in1 => exact (setBit_and_undriven s.in1 b (hdriven rfl)).trans h.in1_fixed

theorem Inv.keyDown (h : Inv s) (key : Key) : Inv (keyDown s key) :=
  (keyDown_cases s key).elim (fun e => e.symm ▸ h) h.setsOneBit

theorem Inv.keyUp (h : Inv s) (key : Key) : Inv (keyUp s key) :=
  (keyUp_cases s key).elim (fun e => e.symm ▸ h) h.setsOneBit

/-! ## DECODE -/

theorem decodePalettes_opaque (colrom palrom : List Byte) {p k : Nat} (hp : p < 32) (hk : k < 4) :
    opaquePixel ((decodePalettes colrom palrom)[p])[k] := by
  rw [decodePalettes_get colrom palrom hp hk]
  exact rgba_opaque _ _ _

theorem Inv.load (h : Inv s) : Inv s.load := by
  rcases load_cases s with ⟨-, e⟩ | ⟨-, e⟩ <;> rw [e] <;> apply Inv.reply
  · exact {
      ram_wf := h.ram_wf
      prog_wf := loadProgram_wf s.roms
      in1_fixed := h.in1_fixed
      pal_opaque := fun _ _ _ => decodePalettes_opaque _ _ _ _
      fb_opaque := nofun }
  · exact { h with pal_opaque := nofun, fb_opaque := nofun }

/-! ## IRQCHK -/

theorem Inv.enter_run (h : Inv s) (hphase : s.phase = .composed) : Inv (s.enter .run) :=
  { h with pal_opaque := fun _ => h.pal_opaque (.inr hphase), fb_opaque := nofun }

/-! ## COMPOSE -/

variable {d : Draw} {ds : List Draw} {y x : Nat} {c p : Pixel}

/-- A pixel that some block writes has, once all are painted, a colour that one of them wrote. -/
theorem exists_at_eq_some_paint (h : ∃ d ∈ ds, (d.at y x).isSome) : ∃ d ∈ ds, d.at y x = some (paint ds y x p) := by
  obtain ⟨c, hc⟩ : ∃ c, (ds.reverse.findSome? fun d => d.at y x) = some c := by
    rw [← Option.isSome_iff_exists, List.findSome?_isSome_iff]
    simpa using h
  obtain ⟨d, hd, hdc⟩ := List.exists_of_findSome?_eq_some hc
  exact ⟨d, List.mem_reverse.1 hd, by rw [paint_eq_findSome, hc]; exact hdc⟩

theorem mem_span {k a b : Nat} : k ∈ span a b ↔ a ≤ k ∧ k ≤ b := by
  rw [span, List.mem_range'_1]
  omega

/-- The draws of a frame are tiles and sprites. -/
theorem mem_drawList (h : d ∈ drawList s) : (∃ o sx sy, d = drawTile s o sx sy) ∨ ∃ i, d = drawSprite s i := by
  simp only [drawList, tilePassBottom, tilePassMain, tilePassTop, spritePass, List.mem_append, List.mem_flatMap, List.mem_map] at h
  rcases h with ((⟨_, _, _, _, e⟩ | ⟨_, _, _, _, e⟩) | ⟨_, _, _, _, e⟩) | ⟨_, _, e⟩
  · exact .inl ⟨_, _, _, e.symm⟩
  · exact .inl ⟨_, _, _, e.symm⟩
  · exact .inl ⟨_, _, _, e.symm⟩
  · exact .inr ⟨_, e.symm⟩

theorem drawTile_colour {o sx sy : Nat} (h : (drawTile s o sx sy).at y x = some c) : ∃ q k, c = s.paletteEntry q k := by
  rw [drawTile_at] at h
  split at h
  · exact ⟨_, _, (Option.some.inj h).symm⟩
  · cases h

theorem drawSprite_colour {i : Nat} (h : (drawSprite s i).at y x = some c) : ∃ q k, c = s.paletteEntry q k := by
  rw [drawSprite_at] at h
  split at h
  · dsimp only [drawSprite] at h
    split at h
    · cases h
    · exact ⟨_, _, (Option.some.inj h).symm⟩
  · cases h

/-- COMPOSE writes no colour that is not a palette entry. -/
theorem drawList_colour (hd : d ∈ drawList s) (h : d.at y x = some c) : ∃ q k, c = s.paletteEntry q k := by
  rcases mem_drawList hd with ⟨o, sx, sy, rfl⟩ | ⟨i, rfl⟩
  · exact drawTile_colour h
  · exact drawSprite_colour h

/-- The three tile passes cover the screen, 28 tiles wide and 36 high (R130): the top border is rows 0 and 1, the playfield 2 to 33, the bottom
border 34 and 35. -/
theorem exists_drawTile_mem_drawList (s : State) {sx sy : Nat} (hx : sx < 28) (hy : sy < 36) : ∃ o, drawTile s o sx sy ∈ drawList s := by
  simp only [drawList, tilePassBottom, tilePassMain, tilePassTop, List.mem_append, List.mem_flatMap, List.mem_map, mem_span]
  rcases Nat.lt_or_ge sy 2 with htop | hge
  · exact ⟨_, .inl (.inr ⟨sy, by omega, 29 - sx, by omega, by rw [show 29 - (29 - sx) = sx by omega]⟩)⟩
  rcases Nat.lt_or_ge sy 34 with hmain | hbottom
  · exact ⟨_, .inl (.inl (.inr ⟨27 - sx, by omega, sy - 2, by omega,
      by rw [show 27 - (27 - sx) = sx by omega, show 2 + (sy - 2) = sy by omega]⟩))⟩
  · exact ⟨_, .inl (.inl (.inl ⟨sy - 34, by omega, 29 - sx, by omega,
      by rw [show 29 - (29 - sx) = sx by omega, show 34 + (sy - 34) = sy by omega]⟩))⟩

theorem exists_draw_at (s : State) (hy : y < 288) (hx : x < 224) : ∃ d ∈ drawList s, (d.at y x).isSome := by
  obtain ⟨o, ho⟩ := exists_drawTile_mem_drawList s (sx := x / 8) (sy := y / 8) (by omega) (by omega)
  exact ⟨_, ho, by rw [drawTile_at, if_pos ⟨rfl, rfl⟩]; rfl⟩

/-- Every pixel of a composed frame is a palette entry: nothing is left of the frame before it (R130). -/
theorem composeFrame_colour (s : State) (hy : y < 288) (hx : x < 224) : ∃ q k, gridGet (composeFrame s) 0 y x = s.paletteEntry q k := by
  rw [composeFrame_get s hy hx]
  obtain ⟨d, hd, hcolour⟩ := exists_at_eq_some_paint (exists_draw_at s hy hx)
  exact drawList_colour hd hcolour

theorem Inv.compose (h : Inv s) (hphase : s.phase = .run) : Inv ((s.setFb (composeFrame s)).enter .composed) where
  ram_wf := h.ram_wf
  prog_wf := h.prog_wf
  in1_fixed := h.in1_fixed
  pal_opaque := fun _ => h.pal_opaque (.inl hphase)
  fb_opaque := fun _ y x hy hx => by
    obtain ⟨q, k, e⟩ := composeFrame_colour s hy hx
    exact e ▸ h.pal_opaque (.inl hphase) q k

/-! ## Transactions and steps -/

theorem Inv.effectOf {i : Instr} (h : Inv s) (hadm : admission i s.phase = none) : Inv (effectOf i s) := by
  cases i with
  | rd8 addr => exact h.reply _
  | wr8 addr val => exact (h.busWrite8 addr val).reply _
  | rd16 addr => exact h.reply _
  | wr16 addr val => exact (h.busWrite16 addr val).reply _
  | inp port => exact h.reply _
  | out port val => exact (h.portWrite port val).reply _
  | keydn key => exact (h.keyDown key).reply _
  | keyup key => exact (h.keyUp key).reply _
  | compose => exact (h.compose (admission_compose_iff.1 hadm)).reply _
  | irqchk =>
    dsimp only [Machine.effectOf]
    split <;> exact (h.reply _).enter_run (admission_irqchk_iff.1 hadm)
  | decode => exact h.load

theorem Inv.exec {i : Instr} (h : Inv s) (hexec : exec i s = .next t) : Inv t := by
  obtain ⟨hadm, rfl⟩ := exec_eq_next.1 hexec
  exact h.effectOf hadm

theorem Inv.step (h : Inv s) (hstep : step s = .next t) : Inv t := by
  rcases step_next_cases hstep with ⟨-, rfl⟩ | ⟨w, rest, i, -, -, hexec⟩
  · exact h
  · exact (h.of_pending rest).exec hexec

end Sys2Proof.Machine

namespace Sys2Proof.Proofs

open Sys2Proof.Machine

/-- Settles O11: construction for every INIT_RAM in canonical form, of which reset's is one. -/
theorem constructionMeetsTheInvariant : Obligations.ConstructionMeetsTheInvariant :=
  ⟨fun _ h => inv_construct h, inv_construct wf_default⟩

/-- Settles O12: each operation keeps the invariant, COMPOSE because the tile passes cover the frame with palette entries. -/
theorem stepKeepsTheInvariant : Obligations.StepKeepsTheInvariant :=
  fun _ _ h hstep => h.step hstep

end Sys2Proof.Proofs
end

section
/-! Who writes each field of the state (10_state.md R24 to R40), what a run leaves unchanged, and the values at construction (R42). -/

namespace Sys2Proof.Machine

variable {s t u : State} {i : Instr}

/-- `t` is `s` but for the five fields that a bus write can name (R104). -/
def OnlyBusFields (s t : State) : Prop :=
  ∃ ram ie se flip sprpos, t = { s with ram := ram, ie := ie, se := se, flip := flip, sprpos := sprpos }

theorem OnlyBusFields.trans (hst : OnlyBusFields s t) (htu : OnlyBusFields t u) : OnlyBusFields s u := by
  obtain ⟨_, _, _, _, _, rfl⟩ := hst
  obtain ⟨_, _, _, _, _, rfl⟩ := htu
  exact ⟨_, _, _, _, _, rfl⟩

theorem onlyBusFields_busWrite8 (s : State) (addr : Word) (v : Byte) : OnlyBusFields s (busWrite8 s addr v) := by
  rcases busWrite8_cases s addr v with ⟨_, _, _, e⟩ | ⟨_, e⟩ | ⟨_, e⟩ | ⟨_, e⟩ | ⟨_, _, _, e⟩ | ⟨_, _, _, _, _, e⟩ <;>
    exact ⟨_, _, _, _, _, e⟩

theorem onlyBusFields_busWrite16 (s : State) (addr v : Word) : OnlyBusFields s (busWrite16 s addr v) :=
  (onlyBusFields_busWrite8 s _ _).trans (onlyBusFields_busWrite8 _ _ _)

/-- `t` is `s` but for the input latches. -/
def OnlyLatches (s t : State) : Prop := ∃ in0 in1, t = { s with in0 := in0, in1 := in1 }

theorem OnlyLatches.of_cases (h : t = s ∨ SetsOneBit s t) : OnlyLatches s t := by
  rcases h with rfl | ⟨l, n, b, -, -, rfl⟩
  · exact ⟨_, _, rfl⟩
  · cases l <;> exact ⟨_, _, rfl⟩

/-- Everything a performed transaction may write: its next state, by who writes what, with the one phase in which each of the three transactions
that change the phase is performed. -/
inductive Writes (s : State) : Instr → State → Prop
  | nothing {i : Instr} (r : Response) : Writes s i (s.reply r)
  | bus {i : Instr} {t : State} (r : Response) (hi : ∃ addr, (∃ v, i = .wr8 addr v) ∨ ∃ v, i = .wr16 addr v) (h : OnlyBusFields s t) :
      Writes s i (t.reply r)
  | vector (r : Response) (v : Byte) : Writes s (.out 0 v) ((s.setVec v).reply r)
  | latches {i : Instr} {t : State} (r : Response) (hi : ∃ key, i = .keydn key ∨ i = .keyup key) (h : OnlyLatches s t) :
      Writes s i (t.reply r)
  | frame (r : Response) (fb : Framebuffer) (hphase : s.phase = .run) : Writes s .compose (((s.setFb fb).enter .composed).reply r)
  | irqCheck (r : Response) (hphase : s.phase = .composed) : Writes s .irqchk ((s.reply r).enter .run)
  | tables (r : Response) (images : RomImages) (hphase : s.phase = .unloaded) :
      Writes s .decode (((s.loadTables images).enter .run).reply r)
  | loadFailed (r : Response) (hphase : s.phase = .unloaded) : Writes s .decode ((s.enter .inactive).reply r)

theorem exec_writes (h : exec i s = .next t) : Writes s i t := by
  obtain ⟨hadm, rfl⟩ := exec_eq_next.1 h
  cases i with
  | rd8 addr => exact .nothing _
  | wr8 addr val => exact .bus _ ⟨addr, .inl ⟨val, rfl⟩⟩ (onlyBusFields_busWrite8 s addr val)
  | rd16 addr => exact .nothing _
  | wr16 addr val => exact .bus _ ⟨addr, .inr ⟨val, rfl⟩⟩ (onlyBusFields_busWrite16 s addr val)
  | inp port => exact .nothing _
  | out port val =>
    dsimp only [effectOf, portWrite]
    split
    next hport => exact hport ▸ .vector _ val
    next => exact .nothing _
  | keydn key => exact .latches _ ⟨key, .inl rfl⟩ (.of_cases (keyDown_cases s key))
  | keyup key => exact .latches _ ⟨key, .inr rfl⟩ (.of_cases (keyUp_cases s key))
  | compose => exact .frame _ _ (admission_compose_iff.1 hadm)
  | irqchk =>
    dsimp only [effectOf]
    split <;> exact .irqCheck _ (admission_irqchk_iff.1 hadm)
  | decode =>
    have hphase := admission_decode_iff.1 hadm
    dsimp only [effectOf]
    rcases load_cases s with ⟨-, e⟩ | ⟨-, e⟩ <;> rw [e]
    · exact .tables _ _ hphase
    · exact .loadFailed _ hphase

/-! ## Runs -/

/-- What a run leaves of the state it began in: DIP and the parameters, and, once out of UNLOADED, being out of it, the program ROM and the tables. -/
def KeepsTables (s t : State) : Prop :=
  t.dip = s.dip ∧ t.roms = s.roms ∧ t.tkey = s.tkey ∧
    (s.phase ≠ .unloaded → t.phase ≠ .unloaded ∧ t.prog = s.prog ∧ t.tile = s.tile ∧ t.sprite = s.sprite ∧ t.pal = s.pal)

theorem KeepsTables.refl (s : State) : KeepsTables s s := ⟨rfl, rfl, rfl, fun h => ⟨h, rfl, rfl, rfl, rfl⟩⟩

theorem KeepsTables.trans (hst : KeepsTables s t) (htu : KeepsTables t u) : KeepsTables s u := by
  obtain ⟨hdip, hroms, htkey, hloaded⟩ := hst
  obtain ⟨hdip', hroms', htkey', hloaded'⟩ := htu
  refine ⟨hdip'.trans hdip, hroms'.trans hroms, htkey'.trans htkey, fun hs => ?_⟩
  obtain ⟨ht, hprog, htile, hsprite, hpal⟩ := hloaded hs
  obtain ⟨hu, hprog', htile', hsprite', hpal'⟩ := hloaded' ht
  exact ⟨hu, hprog'.trans hprog, htile'.trans htile, hsprite'.trans hsprite, hpal'.trans hpal⟩

/-- Only DECODE writes the tables, and it is performed in UNLOADED only. -/
theorem Writes.keepsTables (h : Writes s i t) : KeepsTables s t := by
  cases h with
  | nothing r => exact .refl s
  | bus r _ h => obtain ⟨_, _, _, _, _, rfl⟩ := h; exact .refl s
  | vector r v => exact .refl s
  | latches r _ h => obtain ⟨_, _, rfl⟩ := h; exact .refl s
  | frame r fb _ => exact ⟨rfl, rfl, rfl, fun _ => ⟨nofun, rfl, rfl, rfl, rfl⟩⟩
  | irqCheck r _ => exact ⟨rfl, rfl, rfl, fun _ => ⟨nofun, rfl, rfl, rfl, rfl⟩⟩
  | tables r images hphase => exact ⟨rfl, rfl, rfl, fun hs => absurd hphase hs⟩
  | loadFailed r hphase => exact ⟨rfl, rfl, rfl, fun hs => absurd hphase hs⟩

theorem step_keepsTables (h : step s = .next t) : KeepsTables s t := by
  rcases step_next_cases h with ⟨-, rfl⟩ | ⟨w, rest, i, -, -, hexec⟩
  · exact .refl t
  · exact (exec_writes hexec).keepsTables

end Sys2Proof.Machine

namespace Sys2Proof.Proofs

open Sys2Proof.Machine

/-- Settles O13: one step keeps the tables, and keeping them composes along a run. -/
theorem runsNeverMutateTheTables : Obligations.RunsNeverMutateTheTables :=
  fun n _ _ h => run_keeps KeepsTables.refl (fun _ _ _ => .trans) (fun _ _ => step_keepsTables) n h

/-- Settles O14, field by field over everything a performed transaction may write. -/
theorem fieldsAreWrittenOnlyByTheirTransactions : Obligations.FieldsAreWrittenOnlyByTheirTransactions := by
  intro i s t hexec
  cases exec_writes hexec with
  | nothing r => simp
  | bus r hi h => obtain ⟨_, _, _, _, _, rfl⟩ := h; simp [hi]
  | vector r v => simp
  | latches r hi h => obtain ⟨_, _, rfl⟩ := h; simp [hi]
  | frame r fb _ => simp
  | irqCheck r _ => simp
  | tables r images _ => simp
  | loadFailed r _ => simp

/-- Settles O10: `State.construct` writes these values. -/
theorem constructionValues : Obligations.ConstructionValues :=
  fun _ => ⟨rfl, rfl, rfl, rfl, rfl, rfl, rfl, rfl, rfl, rfl⟩

end Sys2Proof.Proofs
end

section
/-! Bus addresses (20_memory.md): bit 15 reaches no bus access (R44), and a byte written again changes nothing (R57). -/

namespace Sys2Proof.Machine

variable {i j : Instr} {s : State}

/-- RUN performs every bus and port transaction (R160). -/
theorem exec_bus_of_run (h : txnClass i = .bus) (hphase : s.phase = .run) : exec i s = .next (effectOf i s) :=
  exec_of_admitted (admission_bus h hphase)

/-- In RUN two bus transactions with one effect answer the same; a refusal would tell them apart, since it records the word (R144). -/
theorem exec_bus_congr (hi : txnClass i = .bus) (hj : txnClass j = .bus) (hphase : s.phase = .run) (h : effectOf i s = effectOf j s) :
    exec i s = exec j s := by
  rw [exec_bus_of_run hi hphase, exec_bus_of_run hj hphase, h]

/-! ## Bit 15 of the address -/

@[simp] theorem busRead8_high (s : State) (addr : Word) : busRead8 s (addr ||| 0x8000) = busRead8 s addr :=
  busRead8_congr s (effectiveAddress_high addr)

@[simp] theorem busWrite8_high (s : State) (addr : Word) (v : Byte) : busWrite8 s (addr ||| 0x8000) v = busWrite8 s addr v :=
  busWrite8_congr s v (effectiveAddress_high addr)

/-- The two addresses of the second byte, each modulo 2^16 (R53), agree modulo 2^15 as well. -/
@[simp] theorem busRead16_high (s : State) (addr : Word) : busRead16 s (addr ||| 0x8000) = busRead16 s addr := by
  rw [busRead16, busRead16, busRead8_high, busRead8_congr s (effectiveAddress_next_high addr)]

@[simp] theorem busWrite16_high (s : State) (addr v : Word) : busWrite16 s (addr ||| 0x8000) v = busWrite16 s addr v := by
  rw [busWrite16, busWrite16, busWrite8_high, busWrite8_congr _ _ (effectiveAddress_next_high addr)]

/-! ## WR8 again -/

theorem effectOf_wr8_phase (addr : Word) (v : Byte) : (effectOf (.wr8 addr v) s).phase = s.phase := (busWrite8_frame s addr v).1

/-- The reply of the first WR8 is not read by the second, whose byte is there already (R57). -/
theorem effectOf_wr8_twice (addr : Word) (v : Byte) (h : Memory.wf 0x1000 s.ram = true) :
    effectOf (.wr8 addr v) (effectOf (.wr8 addr v) s) = effectOf (.wr8 addr v) s := by
  simp only [effectOf]
  rw [busWrite8_reply, busWrite8_twice s addr v h]
  rfl

end Sys2Proof.Machine

namespace Sys2Proof.Proofs

open Sys2Proof.Machine

/-- Settles O16: the four bus forms have one effect at the two addresses, and RUN admits them at both. -/
theorem highAddressBitIsIgnored : Obligations.HighAddressBitIsIgnored := by
  intro s addr b v hphase
  refine ⟨exec_bus_congr rfl rfl hphase ?_, exec_bus_congr rfl rfl hphase ?_, exec_bus_congr rfl rfl hphase ?_,
    exec_bus_congr rfl rfl hphase ?_⟩
  · simp only [effectOf, busRead8_high]
  · simp only [effectOf, busWrite8_high]
  · simp only [effectOf, busRead16_high]
  · simp only [effectOf, busWrite16_high]

/-- Settles O19: WR8 leaves the phase, so it is performed again, and its effect on what it left is that state itself. -/
theorem byteWriteTwiceIsOnce : Obligations.ByteWriteTwiceIsOnce := by
  intro s addr v hphase hwf
  have hagain : (effectOf (.wr8 addr v) s).phase = .run := (effectOf_wr8_phase addr v).trans hphase
  refine ⟨_, exec_bus_of_run rfl hphase, ?_⟩
  rw [exec_bus_of_run rfl hagain, effectOf_wr8_twice addr v hwf]

end Sys2Proof.Proofs
end

section
/-! The transaction word (30_encoding.md R64 to R67, R69): decoding, row of the opcode table by row, and the encoder that it undoes. -/

namespace Sys2Proof

variable {w : TxnWord} {op : Op} {i : Instr}

/-! ## Decoding by the rows of R65 -/

/-- A word whose OP no row has is rejected for it (R69 (a)). -/
theorem decodeWord_of_no_row (h : Op.ofCode (opField w) = none) : decodeWord w = .error (.reservedOp w) := by
  simp only [decodeWord, h]

/-- A word of a row is the row's transaction where its must-be-zero fields are clear, and rejected for them where they are not (R69 (b)). -/
theorem decodeWord_of_row (h : opField w = op.code) :
    decodeWord w = if w &&& op.mustBeZero = 0 then .ok (op.assemble w) else .error (.nonzeroReservedField w) := by
  simp only [decodeWord, h, ofCode_code]

/-! ## The word of a transaction -/

theorem opField_encode (i : Instr) : opField (encode i) = i.op.code := by
  cases i <;> exact opField_txnWord ..

/-- The encoder leaves its row's must-be-zero fields clear (R65). -/
theorem encode_and_mustBeZero (i : Instr) : encode i &&& i.op.mustBeZero = 0 := by
  rw [mustBeZero_clear]
  cases i <;> simp [encode, Instr.op, Laws.TableRow.zextByte_lt]

/-- The operands read back from the word of a well-formed transaction (R66, R67). -/
theorem assemble_encode (h : i.wf = true) : i.op.assemble (encode i) = i := by
  cases i with
  | keydn key => exact congrArg Instr.keydn ((congrArg Key.ofCode (kField_txnWord ..)).trans (keyCode_ofCode key h))
  | keyup key => exact congrArg Instr.keyup ((congrArg Key.ofCode (kField_txnWord ..)).trans (keyCode_ofCode key h))
  | _ => simp [Instr.op, Op.assemble, encode]

theorem decodeWord_encode (h : i.wf = true) : decodeWord (encode i) = .ok i := by
  rw [decodeWord_of_row (opField_encode i), if_pos (encode_and_mustBeZero i), assemble_encode h]

/-! ## The transaction of a word -/

/-- Every transaction a row assembles is well-formed: the K field names a key or is an unrecognised one (R67). -/
theorem assemble_wf (op : Op) (w : TxnWord) : (op.assemble w).wf = true := by
  cases op with
  | keydn => exact (ofCode_wf (kField w)).1
  | keyup => exact (ofCode_wf (kField w)).1
  | _ => rfl

/-- The encoder puts each operand where the row read it, and the fields it leaves zero are the ones the row demands zero. -/
theorem encode_assemble (hop : opField w = op.code) (hclear : w &&& op.mustBeZero = 0) : encode (op.assemble w) = w := by
  rw [mustBeZero_clear] at hclear
  conv_rhs => rw [← txnWord_fields w, hop]
  cases op <;> simp_all [Op.assemble, encode, Op.code, zextByte_lowByte, ofCode_wf]

/-- The words of a transaction: its encoding alone, and none where it is ill-formed. -/
theorem decodeWord_eq_ok_iff : decodeWord w = .ok i ↔ i.wf = true ∧ encode i = w := by
  constructor
  · intro h
    cases hrow : Op.ofCode (opField w) with
    | none => rw [decodeWord_of_no_row hrow] at h; cases h
    | some op =>
      have hop := (ofCode_eq_some _ _).1 hrow
      rw [decodeWord_of_row hop] at h
      split at h
      next hclear =>
        cases h
        exact ⟨assemble_wf op w, encode_assemble hop hclear⟩
      next => cases h
  · rintro ⟨hwf, rfl⟩
    exact decodeWord_encode hwf

end Sys2Proof

namespace Sys2Proof.Proofs

/-- Settles O1: the row of the transaction's OP, its clear must-be-zero fields and its operands are read back from the word. -/
theorem decodeOfEncodeIsTheTransaction : Obligations.DecodeOfEncodeIsTheTransaction := fun _ hwf => decodeWord_encode hwf

/-- Settles O2: the row's operands and its clear fields are the whole word, so the encoder writes it again. -/
theorem encodeOfDecodeIsTheWord : Obligations.EncodeOfDecodeIsTheWord := fun _ _ h => decodeWord_eq_ok_iff.1 h

/-- Settles O3: each vector's word is the encoding of its transaction. -/
theorem writtenWordsDecode : Obligations.WrittenWordsDecode := by
  simp only [Obligations.WrittenWordsDecode, decodeWord_eq_ok_iff]
  decide

end Sys2Proof.Proofs
end

section
/-! Reserved, illegal and ignored encodings (R69): which words have no row or a must-be-zero field set, and which transactions do nothing. -/

namespace Sys2Proof.Machine

variable {w : TxnWord} {op : Op} {s : State}

/-! ## The fields of R64 in numerals are the decoder's -/

theorem spec_op_eq (w : TxnWord) : Spec.op w = (opField w).toNat := (opField_toNat w).symm

theorem spec_k_eq (w : TxnWord) : Spec.k w = (kField w).toNat := (kField_toNat w).symm

theorem spec_a_eq (w : TxnWord) : Spec.a w = (aField w).toNat := (aField_toNat w).symm

theorem spec_d_eq (w : TxnWord) : Spec.d w = (dField w).toNat := (dField_toNat w).symm

theorem spec_ea_eq (addr : Word) : Spec.ea addr = effectiveAddress addr := (effectiveAddress_eq addr).symm

/-! ## Words that are rejected -/

theorem ofCode_eq_none_iff_op : Op.ofCode (opField w) = none ↔ Spec.op w = 0 ∨ 12 ≤ Spec.op w := by
  rw [ofCode_eq_none, spec_op_eq]

/-- Of the words of a row, those with a must-be-zero field set are the ones the row's mask meets (R65). -/
theorem reservedFieldSet_iff_of_row (h : opField w = op.code) : Spec.reservedFieldSet w ↔ w &&& op.mustBeZero ≠ 0 := by
  have hop : Spec.op w = op.code.toNat := by rw [spec_op_eq, h]
  have eq_zero {n : Nat} (x : BitVec n) : x = 0 ↔ x.toNat = 0 := BitVec.toNat_inj.symm
  rw [Spec.reservedFieldSet, ne_eq (w &&& _), mustBeZero_clear, spec_k_eq, spec_a_eq, spec_d_eq]
  cases op <;> simp only [Op.code, BitVec.reduceToNat, eq_zero] at hop ⊢ <;> omega

/-- Only a word of a row has must-be-zero fields. -/
theorem row_of_reservedFieldSet (h : Spec.reservedFieldSet w) : ∃ op : Op, opField w = op.code := by
  cases hrow : Op.ofCode (opField w) with
  | none =>
    have := ofCode_eq_none_iff_op.1 hrow
    unfold Spec.reservedFieldSet at h
    omega
  | some op => exact ⟨op, (ofCode_eq_some _ _).1 hrow⟩

theorem decodeWord_of_reservedOp (h : Spec.op w = 0 ∨ 12 ≤ Spec.op w) : decodeWord w = .error (.reservedOp w) :=
  decodeWord_of_no_row (ofCode_eq_none_iff_op.2 h)

theorem decodeWord_of_reservedFieldSet (h : Spec.reservedFieldSet w) : decodeWord w = .error (.nonzeroReservedField w) := by
  obtain ⟨op, hop⟩ := row_of_reservedFieldSet h
  rw [decodeWord_of_row hop, if_neg ((reservedFieldSet_iff_of_row hop).1 h)]

/-! ## Transactions that do nothing -/

theorem portWrite_of_ne_zero {port : Byte} (val : Byte) (h : port ≠ 0) : portWrite s port val = s := if_neg h

/-- Above the registers a read returns 0xFF (R103). -/
theorem busRead8_unmapped {addr : Word} (h : 0x5100 ≤ effectiveAddress addr) : busRead8 s addr = 0xFF := by
  have hregion : readRegion (effectiveAddress addr) = .unmapped := by
    unfold readRegion
    repeat rw [if_neg (by omega)]
  rw [busRead8, hregion]

/-- Above the registers a write stores nothing (R112). -/
theorem busWrite8_unmapped {addr : Word} (v : Byte) (h : 0x5100 ≤ effectiveAddress addr) : busWrite8 s addr v = s := by
  have hregion : writeRegion (effectiveAddress addr) = .unmapped := by
    unfold writeRegion
    repeat rw [if_neg (by omega)]
  rw [busWrite8, hregion]

end Sys2Proof.Machine

namespace Sys2Proof.Proofs

open Sys2Proof.Machine

/-- Settles O4: the two rejections by decoding, the ignored transactions by their effects in the phases that admit them. -/
theorem reservedIllegalAndIgnoredEncodings : Obligations.ReservedIllegalAndIgnoredEncodings := by
  refine ⟨fun s w rest hpending => ⟨fun h => ?_, fun h => ?_⟩, fun s n hphase _ => ⟨?_, ?_⟩, fun s hphase =>
    ⟨fun port val hport => ?_, fun port => ?_, fun addr b v haddr => ?_⟩⟩
  · exact step_of_error hpending (decodeWord_of_reservedOp h)
  · exact step_of_error hpending (decodeWord_of_reservedFieldSet h)
  · exact exec_of_admitted (admission_key rfl hphase)
  · exact exec_of_admitted (admission_key rfl hphase)
  · rw [exec_bus_of_run rfl hphase, effectOf, portWrite_of_ne_zero val hport]
    rfl
  · exact exec_bus_of_run rfl hphase
  · rw [spec_ea_eq] at haddr
    refine ⟨?_, ?_, ⟨_, exec_bus_of_run rfl hphase⟩, ⟨_, exec_bus_of_run rfl hphase⟩⟩
    · rw [exec_bus_of_run rfl hphase, effectOf, busRead8_unmapped haddr]
      rfl
    · rw [exec_bus_of_run rfl hphase, effectOf, busWrite8_unmapped b haddr]
      rfl

end Sys2Proof.Proofs
end

section
/-! The pseudo-transaction SPRITE (30_encoding.md R71): four byte writes of a CPU span, and the slot the composer fetches after them. -/

namespace Sys2Proof.Machine

variable {s t : State} {i : Instr}

/-! ## Sequences of bus transactions -/

theorem portWrite_phase (port val : Byte) : (portWrite s port val).phase = s.phase := by
  unfold portWrite
  split <;> rfl

theorem effectOf_bus_phase (h : txnClass i = .bus) (s : State) : (effectOf i s).phase = s.phase := by
  cases i with
  | wr8 addr val => exact effectOf_wr8_phase addr val
  | wr16 addr val =>
    exact (busWrite8_frame (busWrite8 s addr (lowByte val)) (nextAddress addr) (highByte val)).1.trans (busWrite8_frame s addr _).1
  | out port val => exact portWrite_phase port val
  | rd8 _ => rfl
  | rd16 _ => rfl
  | inp _ => rfl
  | _ => cases h

/-- In RUN a sequence of bus transactions is performed to its end: each has its effect and leaves the phase (R160). -/
theorem performAll_bus {is : List Instr} (h : ∀ i ∈ is, txnClass i = .bus) (hphase : s.phase = .run) :
    performAll is s = .next (is.foldl (fun s i => effectOf i s) s) ∧ (is.foldl (fun s i => effectOf i s) s).phase = .run := by
  induction is generalizing s with
  | nil => exact ⟨rfl, hphase⟩
  | cons i is ih =>
    obtain ⟨hi, his⟩ := List.forall_mem_cons.1 h
    rw [performAll_cons_next (exec_bus_of_run hi hphase)]
    exact ih his ((effectOf_bus_phase hi s).trans hphase)

/-! ## What a WR8 leaves in RAM and in the sprite positions -/

theorem effectOf_wr8_wf (addr : Word) (v : Byte) (h : Memory.wf 0x1000 s.ram = true) :
    Memory.wf 0x1000 (effectOf (.wr8 addr v) s).ram = true := busWrite8_wf s addr v h

/-- RAM byte `o` is the byte last written at 0x4000 + o (R25, R82). -/
theorem effectOf_wr8_ramByte {addr : Word} (v : Byte) {o : Nat} (hwf : Memory.wf 0x1000 s.ram = true) (ho : o < 0x1000) :
    (effectOf (.wr8 addr v) s).ramByte o = if effectiveAddress addr = 0x4000 + o then v else s.ramByte o := by
  refine (busWrite8_ram s addr v o hwf).trans (if_congr ?_ rfl rfl)
  omega

/-- Sprite position `k` is the byte last written at 0x5060 + k (R31, R82). -/
theorem effectOf_wr8_sprpos {addr : Word} (v : Byte) {k : Nat} (hk : k < 16) :
    (effectOf (.wr8 addr v) s).sprpos[k]? = if effectiveAddress addr = 0x5060 + k then some v else s.sprpos[k]? := by
  change (busWrite8 s addr v).sprpos[k]? = _
  rcases busWrite8_cases s addr v with ⟨_, _, _, h⟩ | ⟨_, h⟩ | ⟨_, h⟩ | ⟨_, h⟩ | ⟨_, _, hoff, h⟩ | ⟨_, _, _, _, _, h⟩ <;> rw [h]
  pick_goal 5
  · rw [State.setSprpos_sprpos, Vector.getElem?_setIfInBounds, hoff, if_pos (by omega : effectiveAddress addr - 0x5060 < 16)]
    exact if_congr (by omega) rfl rfl
  all_goals exact (if_neg (by omega)).symm

/-! ## The slot -/

/-- Below 0x8000 adding to an address adds to its effective address. -/
theorem effectiveAddress_add_ofNat {base : Word} {b n : Nat} (hb : base.toNat = b) (hn : b + n < 0x8000) :
    effectiveAddress (base + BitVec.ofNat 16 n) = b + n := by
  rw [effectiveAddress_eq, BitVec.toNat_add, BitVec.toNat_ofNat]
  omega

theorem spriteNumber_eq (code : Byte) : spriteNumber code = BitVec.ofNat 6 (code.toNat / 4) := by
  apply BitVec.eq_of_toNat_eq
  rw [spriteNumber, BitVec.extractLsb'_toNat, Nat.shiftRight_eq_div_pow, BitVec.toNat_ofNat]

theorem paletteSlot_eq (b : Byte) : paletteSlot b = BitVec.ofNat 5 (b.toNat % 32) := by
  apply BitVec.eq_of_toNat_eq
  rw [paletteSlot, BitVec.extractLsb'_toNat, Nat.shiftRight_zero, BitVec.toNat_ofNat, Nat.mod_mod]

/-- The slot fetched from its code byte, its palette byte and its two positions (R78, R79, R132). -/
theorem fetchSprite_of_bytes {k : Nat} {code pal x y : Byte} (hcode : t.ramByte (0xFF0 + 2 * k) = code)
    (hpal : t.ramByte (0xFF1 + 2 * k) = pal) (hx : t.sprpos[2 * k]? = some x) (hy : t.sprpos[2 * k + 1]? = some y) :
    fetchSprite t k =
      { number := BitVec.ofNat 6 (code.toNat / 4)
        hflip := code.getLsbD 1
        vflip := code.getLsbD 0
        slot := BitVec.ofNat 5 (pal.toNat % 32)
        posX := x
        posY := y } := by
  simp only [fetchSprite, spriteAttributes, hcode, hpal, hx, hy, spriteNumber_eq, paletteSlot_eq, horizontalFlip, verticalFlip,
    Option.getD_some]

end Sys2Proof.Machine

namespace Sys2Proof.Proofs

open Sys2Proof.Machine

/-- Settles O46: the four writes reach the slot's code byte, palette byte and two positions, and none of them another's byte. -/
theorem spritePseudoSetsTheSlot : Obligations.SpritePseudoSetsTheSlot := by
  intro s i code pal x y hphase hwf
  obtain ⟨hrun, hphaseEnd⟩ := performAll_bus (is := (Pseudo.sprite i code pal x y).expand) (by simp [Pseudo.expand, txnClass]) hphase
  refine ⟨_, hrun, hphaseEnd, ?_⟩
  have hi := i.isLt
  have hcodeAddr : effectiveAddress (0x4FF0 + BitVec.ofNat 16 (2 * i)) = 0x4FF0 + 2 * i := effectiveAddress_add_ofNat rfl (by omega)
  have hpalAddr : effectiveAddress (0x4FF1 + BitVec.ofNat 16 (2 * i)) = 0x4FF1 + 2 * i := effectiveAddress_add_ofNat rfl (by omega)
  have hxAddr : effectiveAddress (0x5060 + BitVec.ofNat 16 (2 * i)) = 0x5060 + 2 * i := effectiveAddress_add_ofNat rfl (by omega)
  have hyAddr : effectiveAddress (0x5061 + BitVec.ofNat 16 (2 * i)) = 0x5061 + 2 * i := effectiveAddress_add_ofNat rfl (by omega)
  have hwf₁ := effectOf_wr8_wf (0x4FF0 + BitVec.ofNat 16 (2 * i)) code hwf
  have hwf₂ := effectOf_wr8_wf (0x4FF1 + BitVec.ofNat 16 (2 * i)) pal hwf₁
  have hwf₃ := effectOf_wr8_wf (0x5060 + BitVec.ofNat 16 (2 * i)) x hwf₂
  apply fetchSprite_of_bytes <;> simp only [Pseudo.expand, List.foldl]
  · rw [effectOf_wr8_ramByte y hwf₃ (by omega), if_neg (by omega), effectOf_wr8_ramByte x hwf₂ (by omega), if_neg (by omega),
      effectOf_wr8_ramByte pal hwf₁ (by omega), if_neg (by omega), effectOf_wr8_ramByte code hwf (by omega), if_pos (by omega)]
  · rw [effectOf_wr8_ramByte y hwf₃ (by omega), if_neg (by omega), effectOf_wr8_ramByte x hwf₂ (by omega), if_neg (by omega),
      effectOf_wr8_ramByte pal hwf₁ (by omega), if_pos (by omega)]
  · rw [effectOf_wr8_sprpos y (by omega), if_neg (by omega), effectOf_wr8_sprpos x (by omega), if_pos (by omega)]
  · rw [effectOf_wr8_sprpos y (by omega), if_pos (by omega)]

end Sys2Proof.Proofs
end

section
/-! The graphics decoders (40_rom_decoder.md R88 to R93): the pixel that a strip, a tile and a sprite leave at each place, and the colours. -/

namespace Sys2Proof.Machine

/-! ## Strips -/

/-- A strip leaves its bytes' pixels in its 8 x 4 block, columns reversed, and the old image outside (R88). -/
theorem gridGet_strip {w h : Nat} (img : Grid PixelIndex w h) (b : Nat → Byte) (bx by0 : Nat) {y x : Nat} (hy : y < h) (hx : x < w) :
    gridGet (strip img b bx by0) 0 y x =
      if by0 ≤ y ∧ y < by0 + 4 ∧ bx ≤ x ∧ x < bx + 8 then stripPixel (b (7 - (x - bx))) (y - by0) else gridGet img 0 y x := by
  unfold strip
  split
  next hin =>
    rw [loops_gridGet 0 _ (fun j q => some (stripPixel (b j) q)) 8 4 (7 - (x - bx)) (y - by0), if_pos (by omega), Option.getD_some]
    intro j q g hj hq
    rw [gridGet_gridSet g 0 _ hy hx, Option.getD_some]
    exact if_congr (by omega) rfl rfl
  next hout =>
    -- No counter writes the pixel: the one the loops are said to hit is past their end.
    rw [loops_gridGet 0 _ (fun _ _ => none) 8 4 8 4, if_neg (by omega)]
    intro j q g hj hq
    rw [gridGet_gridSet g 0 _ hy hx, if_neg (by omega), if_neg (by omega)]

/-! ## Tiles and sprites -/

/-- The pixel of a decoded tile: rows 0 to 3 from the second strip, rows 4 to 7 from the first (R90, R73). -/
theorem gridGet_decodeTile (rom : List Byte) (t : Nat) {r c : Nat} (hr : r < 8) (hc : c < 8) :
    gridGet (decodeTile rom t) 0 r c = stripPixel (romByte rom (16 * t + (if r < 4 then 8 else 0) + (7 - c))) (r % 4) := by
  rw [decodeTile, gridGet_strip _ _ _ _ hr hc, gridGet_strip _ _ _ _ hr hc]
  by_cases htop : r < 4
  · rw [if_pos (by omega), if_pos htop, Nat.sub_zero, Nat.sub_zero, Nat.mod_eq_of_lt htop]
  · rw [if_neg (by omega), if_pos (by omega), if_neg htop, Nat.sub_zero, Nat.add_zero, show r % 4 = r - 4 by omega]

/-- The strip table of R74 in closed form. -/
theorem strip_place {k : Nat} (hk : k < 8) : stripColumns.getD k 0 = (if k < 4 then 8 else 0) ∧ stripRows.getD k 0 = 4 * ((k + 3) % 4) := by
  revert k
  decide

/-- The strip whose block holds row `r`, column `c` of a sprite (R74). -/
def stripAt (r c : Nat) : Nat := (r / 4 + 1) % 4 + (if c < 8 then 4 else 0)

theorem stripAt_lt (r c : Nat) : stripAt r c < 8 := by
  unfold stripAt
  split <;> omega

theorem eq_stripAt_iff {k r c : Nat} (hk : k < 8) (hr : r < 16) (hc : c < 16) :
    k = stripAt r c ↔
      stripRows.getD k 0 ≤ r ∧ r < stripRows.getD k 0 + 4 ∧ stripColumns.getD k 0 ≤ c ∧ c < stripColumns.getD k 0 + 8 := by
  obtain ⟨hcol, hrow⟩ := strip_place hk
  rw [hcol, hrow, stripAt]
  split <;> split <;> omega

/-- Inside its strip's block a pixel's row and reversed column are its row modulo 4 and column modulo 8. -/
theorem stripAt_offsets {k r c : Nat} (hk : k < 8) (hr : r < 16) (hc : c < 16) (h : k = stripAt r c) :
    r - stripRows.getD k 0 = r % 4 ∧ c - stripColumns.getD k 0 = c % 8 := by
  have hin := (eq_stripAt_iff hk hr hc).1 h
  obtain ⟨hcol, hrow⟩ := strip_place hk
  rw [hcol, hrow] at hin ⊢
  split at hin <;> split <;> omega

/-- The pixel of a decoded sprite: of the eight strips only that of its block writes it (R91). -/
theorem gridGet_decodeSprite (rom : List Byte) (n : Nat) {r c : Nat} (hr : r < 16) (hc : c < 16) :
    gridGet (decodeSprite rom n) 0 r c = stripPixel (romByte rom (64 * n + 8 * stripAt r c + (7 - c % 8))) (r % 4) := by
  rw [decodeSprite, loop_gridGet 0 _ (fun k => some (stripPixel (romByte rom (64 * n + 8 * k + (7 - c % 8))) (r % 4))) 8 (stripAt r c),
    if_pos (stripAt_lt r c), Option.getD_some]
  intro k g hk
  rw [gridGet_strip _ _ _ _ hr hc]
  refine if_ctx_congr (eq_stripAt_iff hk hr hc).symm (fun h => ?_) fun _ => rfl
  obtain ⟨hrow, hcol⟩ := stripAt_offsets hk hr hc h
  rw [hrow, hcol, Option.getD_some]

/-! ## Colours -/

theorem weight_eq_mul (c : Byte) (n k : Nat) : weight c n k = k * (c.getLsbD n).toNat := by
  unfold weight
  cases c.getLsbD n <;> simp

theorem spec_channelR_eq (c : Byte) : Spec.channelR c = red c := by simp only [red, weight_eq_mul, Spec.channelR]

theorem spec_channelG_eq (c : Byte) : Spec.channelG c = green c := by simp only [green, weight_eq_mul, Spec.channelG]

theorem spec_channelB_eq (c : Byte) : Spec.channelB c = blue c := by simp only [blue, weight_eq_mul, Spec.channelB]

/-- No sum loses a bit when it becomes a byte of the pixel word (R93). -/
theorem colour_toNat (c : Byte) : (colour c).toNat = Spec.colourWord c := by
  have hr := red_le c
  have hg := green_le c
  have hb := blue_le c
  rw [colour, rgba_toNat, BitVec.toNat_ofNat, BitVec.toNat_ofNat, BitVec.toNat_ofNat, Nat.mod_eq_of_lt (by omega),
    Nat.mod_eq_of_lt (by omega), Nat.mod_eq_of_lt (by omega), Spec.colourWord, spec_channelR_eq, spec_channelG_eq, spec_channelB_eq]

theorem colourIndex_eq (palrom : List Byte) (p k : Nat) : colourIndex palrom p k = (romByte palrom (4 * p + k)).toNat % 16 := by
  rw [colourIndex, BitVec.toNat_and]
  exact Nat.and_two_pow_sub_one_eq_mod _ 4

end Sys2Proof.Machine

namespace Sys2Proof.Proofs

open Sys2Proof.Machine

/-- Settles O43, from the pixel that a strip leaves at each place. -/
theorem stripDecodeWritesItsBlock : Obligations.StripDecodeWritesItsBlock := by
  intro w h img b bx by0 _ _ y x hy hx
  rw [gridGet_strip img b bx by0 hy hx]
  refine ⟨fun htop hbottom hleft hright => ?_, fun hout => if_neg hout⟩
  rw [if_pos ⟨htop, hbottom, hleft, hright⟩]
  exact stripPixel_toNat _ _

/-- Settles O42: each sum fits its byte of the pixel word. -/
theorem colourDecodeIsExact : Obligations.ColourDecodeIsExact :=
  fun c => ⟨colour_toNat c, spec_channelR_eq c ▸ red_le c, spec_channelG_eq c ▸ green_le c, spec_channelB_eq c ▸ blue_le c⟩

end Sys2Proof.Proofs
end

section
/-! The load (40_rom_decoder.md R84 to R86): which images fail, what DECODE of good and of failing images answers, and what it reads of them. -/

namespace Sys2Proof.Machine

variable {s : State} {r r' : RomImages}

/-! ## Failing images -/

theorem missingOrShort_iff {x : RomName} : Spec.missingOrShort r x ↔ ∀ bytes, romImage r x = some bytes → bytes.length < romNeed x := by
  cases x <;> rfl

theorem romFails_iff {x : RomName} : romFails r x = true ↔ Spec.missingOrShort r x := by
  rw [missingOrShort_iff]
  cases himage : romImage r x with
  | none => simp [romFails_none himage]
  | some bytes => simp [romFails_some himage]

theorem mem_failingImages_iff {x : RomName} : x ∈ failingImages r ↔ Spec.missingOrShort r x := mem_failingImages.trans romFails_iff

/-- Good images are, name by name, images of at least their sizes. -/
theorem exists_romImage_of_good {p0 p1 p2 p3 col pal til spr : List Byte} (h : Spec.GoodImages r p0 p1 p2 p3 col pal til spr)
    (x : RomName) : ∃ bytes, romImage r x = some bytes ∧ romNeed x ≤ bytes.length := by
  obtain rfl := h.images
  cases x with
  | prog0 => exact ⟨p0, rfl, h.prog0⟩
  | prog1 => exact ⟨p1, rfl, h.prog1⟩
  | prog2 => exact ⟨p2, rfl, h.prog2⟩
  | prog3 => exact ⟨p3, rfl, h.prog3⟩
  | colrom => exact ⟨col, rfl, h.colrom⟩
  | palrom => exact ⟨pal, rfl, h.palrom⟩
  | tilerom => exact ⟨til, rfl, h.tilerom⟩
  | sprrom => exact ⟨spr, rfl, h.sprrom⟩

theorem failingImages_of_good {p0 p1 p2 p3 col pal til spr : List Byte} (h : Spec.GoodImages r p0 p1 p2 p3 col pal til spr) :
    failingImages r = [] := by
  rw [List.eq_nil_iff_forall_not_mem]
  intro x hx
  obtain ⟨bytes, himage, hneed⟩ := exists_romImage_of_good h x
  exact absurd (missingOrShort_iff.1 (mem_failingImages_iff.1 hx) bytes himage) (Nat.not_lt.2 hneed)

/-! ## DECODE -/

theorem exec_decode_of_nil (hphase : s.phase = .unloaded) (h : failingImages s.roms = []) :
    exec .decode s = .next (((s.loadTables s.roms).enter .run).reply .nothing) :=
  (exec_of_admitted (admission_decode_iff.2 hphase)).trans (congrArg _ (if_pos h))

theorem exec_decode_of_good {p0 p1 p2 p3 col pal til spr : List Byte} (hphase : s.phase = .unloaded)
    (h : Spec.GoodImages s.roms p0 p1 p2 p3 col pal til spr) :
    exec .decode s = .next (((s.loadTables s.roms).enter .run).reply .nothing) :=
  exec_decode_of_nil hphase (failingImages_of_good h)

theorem exec_decode_of_failing (hphase : s.phase = .unloaded) (h : ∃ x, Spec.missingOrShort s.roms x) :
    exec .decode s = .next ((s.enter .inactive).reply (.loadFailures (failingImages s.roms))) := by
  obtain ⟨x, hx⟩ := h
  exact (exec_of_admitted (admission_decode_iff.2 hphase)).trans
    (congrArg _ (if_neg (List.ne_nil_of_mem (mem_failingImages_iff.2 hx))))

/-! ## The program ROM -/

/-- After chunks of 4096 bytes each, the next chunk's bytes are at its offset. -/
theorem getD_chunk {before chunk after : List Byte} {o j : Nat} (hbefore : before.length = o) (hchunk : 4096 ≤ chunk.length)
    (hj : j < 4096) : (before ++ (chunk.take 4096 ++ after)).getD (o + j) 0 = chunk.getD j 0 := by
  have hlen : (chunk.take 4096).length = 4096 := List.length_take_of_le hchunk
  rw [List.getD_append_right _ _ _ _ (by omega), List.getD_append _ _ _ _ (by omega), hbefore, Nat.add_sub_cancel_left,
    List.getD_eq_getElem?_getD, List.getElem?_take_of_lt hj, List.getD_eq_getElem?_getD]

/-- The program ROM holds the four chunks one after another (R84, R24). -/
theorem read_loadProgram {p0 p1 p2 p3 col pal til spr : List Byte} (h : Spec.GoodImages r p0 p1 p2 p3 col pal til spr) {j : Nat}
    (hj : j < 4096) :
    Memory.read (loadProgram r) j = p0.getD j 0 ∧ Memory.read (loadProgram r) (0x1000 + j) = p1.getD j 0 ∧
      Memory.read (loadProgram r) (0x2000 + j) = p2.getD j 0 ∧ Memory.read (loadProgram r) (0x3000 + j) = p3.getD j 0 := by
  have hread (o : Nat) : Memory.read (loadProgram r) o =
      (p0.take 4096 ++ (p1.take 4096 ++ (p2.take 4096 ++ (p3.take 4096 ++ [])))).getD o 0 := by
    rw [h.images, List.append_nil, ← List.append_assoc, ← List.append_assoc, ← Memory.read_ofBytes _ 0 o, Nat.zero_add]
    rfl
  have h0 := List.length_take_of_le h.prog0
  have h1 := List.length_take_of_le h.prog1
  have h2 := List.length_take_of_le h.prog2
  simp only [hread]
  refine ⟨?_, ?_, ?_, ?_⟩
  · simpa using getD_chunk (before := []) rfl h.prog0 hj
  · exact getD_chunk h0 h.prog1 hj
  · rw [← List.append_assoc]
    exact getD_chunk (by simp [h0, h1]) h.prog2 hj
  · rw [← List.append_assoc, ← List.append_assoc]
    exact getD_chunk (by simp [h0, h1, h2]) h.prog3 hj

/-! ## What DECODE reads of the images -/

theorem romByte_take (rom : List Byte) {n o : Nat} (ho : o < n) : romByte (rom.take n) o = romByte rom o := by
  rw [romByte, romByte, List.getD_eq_getElem?_getD, List.getElem?_take_of_lt ho, List.getD_eq_getElem?_getD]

theorem romByte_congr {rom rom' : List Byte} {n o : Nat} (h : rom.take n = rom'.take n) (ho : o < n) : romByte rom o = romByte rom' o := by
  rw [← romByte_take rom ho, h, romByte_take rom' ho]

theorem decodeTiles_congr {rom rom' : List Byte} (h : rom.take 4096 = rom'.take 4096) : decodeTiles rom = decodeTiles rom' := by
  refine Vector.ext fun t ht => ?_
  rw [decodeTiles, decodeTiles, tabulate_get, tabulate_get]
  refine grid_ext _ _ 0 fun r c hr hc => ?_
  rw [gridGet_decodeTile rom t hr hc, gridGet_decodeTile rom' t hr hc, romByte_congr h (by split <;> omega)]

theorem decodeSprites_congr {rom rom' : List Byte} (h : rom.take 4096 = rom'.take 4096) : decodeSprites rom = decodeSprites rom' := by
  refine Vector.ext fun n hn => ?_
  rw [decodeSprites, decodeSprites, tabulate_get, tabulate_get]
  refine grid_ext _ _ 0 fun r c hr hc => ?_
  have hstrip := stripAt_lt r c
  rw [gridGet_decodeSprite rom n hr hc, gridGet_decodeSprite rom' n hr hc, romByte_congr h (by omega)]

theorem decodePalettes_congr {col col' pal pal' : List Byte} (hcol : col.take 32 = col'.take 32) (hpal : pal.take 256 = pal'.take 256) :
    decodePalettes col pal = decodePalettes col' pal' := by
  refine Vector.ext fun p hp => Vector.ext fun k hk => ?_
  rw [decodePalettes_get col pal hp hk, decodePalettes_get col' pal' hp hk, colourIndex_eq, colourIndex_eq, romByte_congr hpal (by omega),
    romByte_congr hcol (by omega)]

/-- Two loads whose images agree on the bytes each must have (R86). -/
def SamePrefixes (r r' : RomImages) : Prop := ∀ x, (romBytes r x).take (romNeed x) = (romBytes r' x).take (romNeed x)

theorem loadProgram_congr (h : SamePrefixes r r') : loadProgram r = loadProgram r' := by
  have h0 : (romBytes r .prog0).take 4096 = (romBytes r' .prog0).take 4096 := h .prog0
  have h1 : (romBytes r .prog1).take 4096 = (romBytes r' .prog1).take 4096 := h .prog1
  have h2 : (romBytes r .prog2).take 4096 = (romBytes r' .prog2).take 4096 := h .prog2
  have h3 : (romBytes r .prog3).take 4096 = (romBytes r' .prog3).take 4096 := h .prog3
  rw [loadProgram, loadProgram, h0, h1, h2, h3]

theorem loadTables_congr (h : SamePrefixes r r') : s.loadTables r = s.loadTables r' := by
  rw [State.loadTables, State.loadTables, loadProgram_congr h, decodeTiles_congr (h .tilerom), decodeSprites_congr (h .sprrom),
    decodePalettes_congr (h .colrom) (h .palrom)]

/-- The images of a load cut to their sizes; a missing one stays missing. -/
def cutImages (r : RomImages) : RomImages where
  prog0 := r.prog0.map (·.take 4096)
  prog1 := r.prog1.map (·.take 4096)
  prog2 := r.prog2.map (·.take 4096)
  prog3 := r.prog3.map (·.take 4096)
  colrom := r.colrom.map (·.take 32)
  palrom := r.palrom.map (·.take 256)
  tilerom := r.tilerom.map (·.take 4096)
  sprrom := r.sprrom.map (·.take 4096)

theorem romImage_cutImages (r : RomImages) (x : RomName) : romImage (cutImages r) x = (romImage r x).map (·.take (romNeed x)) := by
  cases x <;> rfl

theorem samePrefixes_cutImages (r : RomImages) : SamePrefixes r (cutImages r) := by
  intro x
  rw [romBytes, romBytes, romImage_cutImages]
  cases romImage r x with
  | none => rfl
  | some bytes => simp

theorem failingImages_cutImages (r : RomImages) : failingImages (cutImages r) = failingImages r := by
  refine List.filter_congr fun x _ => ?_
  cases himage : romImage r x with
  | none => rw [romFails_none himage, romFails_none (by simp [romImage_cutImages, himage])]
  | some bytes => simp [romFails, romImage_cutImages, himage]

/-- DECODE of images that do not fail writes the same from them and from the cut images (R86). -/
theorem exec_decode_cutImages (hphase : s.phase = .unloaded) (h : failingImages s.roms = []) :
    exec .decode { s with roms := cutImages s.roms } =
      .next { ((s.loadTables s.roms).enter .run).reply .nothing with roms := cutImages s.roms } := by
  rw [loadTables_congr (samePrefixes_cutImages s.roms)]
  exact exec_decode_of_nil hphase ((failingImages_cutImages s.roms).trans h)

end Sys2Proof.Machine

namespace Sys2Proof.Proofs

open Sys2Proof.Machine

/-- Settles O38: a good load writes the program ROM, the three tables, the phase and the response, and no other field. -/
theorem decodeLoadsTheProgramRom : Obligations.DecodeLoadsTheProgramRom :=
  fun _ _ _ _ _ _ _ _ _ hphase h => ⟨_, exec_decode_of_good hphase h, rfl, fun _ => read_loadProgram h, rfl⟩

/-- Settles O39, from the pixel of a decoded tile. -/
theorem decodeFillsTheTileTable : Obligations.DecodeFillsTheTileTable := by
  intro s p0 p1 p2 p3 col pal til spr hphase h
  refine ⟨_, exec_decode_of_good hphase h, fun n r c hr hc => ?_⟩
  simp only [State.tilePixel, State.reply_tile, State.enter_tile, State.loadTables_tile, h.images, decodeTiles, tabulate_get]
  rw [gridGet_decodeTile _ _ hr hc, stripPixel_toNat]
  rfl

/-- Settles O40, from the pixel of a decoded sprite. -/
theorem decodeFillsTheSpriteTable : Obligations.DecodeFillsTheSpriteTable := by
  intro s p0 p1 p2 p3 col pal til spr hphase h
  refine ⟨_, exec_decode_of_good hphase h, fun n r c hr hc => ?_⟩
  simp only [State.spritePixel, State.reply_sprite, State.enter_sprite, State.loadTables_sprite, h.images, decodeSprites, tabulate_get]
  rw [gridGet_decodeSprite _ _ hr hc, stripPixel_toNat]
  rfl

/-- Settles O41, from the entry of a decoded palette and the exact colour. -/
theorem decodeFillsThePaletteTable : Obligations.DecodeFillsThePaletteTable := by
  intro s p0 p1 p2 p3 col pal til spr hphase h
  refine ⟨_, exec_decode_of_good hphase h, fun p k => ?_⟩
  simp only [State.paletteEntry, State.reply_pal, State.enter_pal, State.loadTables_pal, h.images]
  rw [decodePalettes_get _ _ p.isLt k.isLt, colour_toNat, colourIndex_eq]
  rfl

/-- Settles O44: the reported images are those of `failingImages`, and INACTIVE admits nothing. -/
theorem loadFailureMakesItInactive : Obligations.LoadFailureMakesItInactive :=
  fun s hphase h => ⟨failingImages s.roms, exec_decode_of_failing hphase h, fun _ => mem_failingImages_iff, failingImages_nodup _,
    fun i => exec_eq_refused.2 (admission_inactive i)⟩

/-- Settles O45: DECODE reads only the prefixes, and the cut images keep those. -/
theorem overlongImagesUseTheirPrefix : Obligations.OverlongImagesUseTheirPrefix := by
  refine fun s hphase => ⟨fun p0 p1 p2 p3 col pal til spr h => ⟨_, exec_decode_of_good hphase h, rfl, ?_⟩,
    fun h => ⟨_, exec_decode_of_failing hphase h, rfl⟩⟩
  have hcut : cutImages s.roms = ⟨some (p0.take 4096), some (p1.take 4096), some (p2.take 4096), some (p3.take 4096),
      some (col.take 32), some (pal.take 256), some (til.take 4096), some (spr.take 4096)⟩ := by
    rw [h.images]
    rfl
  rw [← hcut]
  exact exec_decode_cutImages hphase (failingImages_of_good h)

end Sys2Proof.Proofs
end

section
/-! AddressBus (41_bus.md): a byte access follows the memory map (R45), a word access is two byte accesses (R113, R114), and the ports. -/

namespace Sys2Proof.Machine

variable {s : State} {a b : Word}

/-! ## Words, bytes and addresses in numerals -/

/-- A word is the number its fields make (R64, R65). -/
theorem txnWord_eq_spec_word (op k : BitVec 4) (a d : Word) : txnWord op k a d = Spec.word op.toNat k.toNat a.toNat d.toNat :=
  (BitVec.toNat_eq_nat.1 (txnWord_toNat op k a d)).2

theorem encode_rd8 (addr : Word) : encode (.rd8 addr) = Spec.word 0x1 0 addr.toNat 0 := txnWord_eq_spec_word ..

theorem encode_wr8 (addr : Word) (v : Byte) : encode (.wr8 addr v) = Spec.word 0x2 0 addr.toNat v.toNat := by
  rw [← zextByte_toNat v]
  exact txnWord_eq_spec_word ..

theorem encode_rd16 (addr : Word) : encode (.rd16 addr) = Spec.word 0x3 0 addr.toNat 0 := txnWord_eq_spec_word ..

theorem encode_wr16 (addr v : Word) : encode (.wr16 addr v) = Spec.word 0x4 0 addr.toNat v.toNat := txnWord_eq_spec_word ..

theorem encode_inp (port : Byte) : encode (.inp port) = Spec.word 0x5 0 port.toNat 0 := by
  rw [← zextByte_toNat port]
  exact txnWord_eq_spec_word ..

theorem encode_out (port val : Byte) : encode (.out port val) = Spec.word 0x6 0 port.toNat val.toNat := by
  rw [← zextByte_toNat port, ← zextByte_toNat val]
  exact txnWord_eq_spec_word ..

theorem ofNat_mod_eq_lowByte (v : Word) : BitVec.ofNat 8 (v.toNat % 256) = lowByte v := (BitVec.toNat_eq_nat.1 (lowByte_toNat v)).2.symm

theorem ofNat_div_eq_highByte (v : Word) : BitVec.ofNat 8 (v.toNat / 256) = highByte v := (BitVec.toNat_eq_nat.1 (highByte_toNat v)).2.symm

theorem ofNat_succ_eq_nextAddress (addr : Word) : BitVec.ofNat 16 ((addr.toNat + 1) % 0x10000) = nextAddress addr :=
  (BitVec.toNat_eq_nat.1 (nextAddress_toNat addr)).2.symm

/-! ## Byte reads -/

theorem readRegion_eq_ram_iff {ea : Nat} : readRegion ea = .ram ↔ 0x4000 ≤ ea ∧ ea < 0x5000 := by
  unfold readRegion
  split_ifs <;> simp <;> omega

/-- The read decode in the bounds of R45. -/
theorem busRead8_eq_spec_readByte (s : State) (addr : Word) : busRead8 s addr = Spec.readByte s addr := by
  have hoff := @ramOffset_eq addr
  rw [Spec.readByte, spec_ea_eq, busRead8, readRegion]
  generalize effectiveAddress addr = e at hoff ⊢
  by_cases hrom : e < 0x4000
  · rw [if_pos hrom, if_pos (by omega)]
    rfl
  rw [if_neg hrom, if_neg (by omega)]
  by_cases hram : e < 0x5000
  · rw [if_pos hram, if_pos (by omega), ← hoff (by omega)]
    rfl
  rw [if_neg hram, if_neg (by omega)]
  by_cases hin0 : e < 0x5040
  · rw [if_pos hin0, if_pos (by omega)]
  rw [if_neg hin0, if_neg (by omega)]
  by_cases hin1 : e < 0x5080
  · rw [if_pos hin1, if_pos (by omega)]
  rw [if_neg hin1, if_neg (by omega)]
  by_cases hdip : e < 0x50C0
  · rw [if_pos hdip, if_pos (by omega)]
  rw [if_neg hdip, if_neg (by omega)]
  split_ifs <;> rfl

/-! ## Byte writes -/

/-- A bus read after a bus write: the byte, where the address written is the address read and lies in RAM (R106, R57). -/
theorem busRead8_busWrite8 (v : Byte) (hwf : Memory.wf 0x1000 s.ram = true) :
    busRead8 (busWrite8 s a v) b =
      if 0x4000 ≤ effectiveAddress a ∧ effectiveAddress a < 0x5000 ∧ effectiveAddress b = effectiveAddress a then v
      else busRead8 s b := by
  obtain ⟨-, hprog, -, hin0, hin1, hdip, -⟩ := busWrite8_frame s a v
  by_cases hb : 0x4000 ≤ effectiveAddress b ∧ effectiveAddress b < 0x5000
  · simp only [busRead8, readRegion_eq_ram_iff.2 hb, busWrite8_ram s a v _ hwf, ramOffset_eq hb.1]
    exact if_congr (by omega) rfl rfl
  · have hregion := mt readRegion_eq_ram_iff.1 hb
    rw [if_neg (by omega), busRead8, busRead8]
    cases hr : readRegion (effectiveAddress b) with
    | rom => exact congrArg (Memory.read · _) hprog
    | ram => exact absurd hr hregion
    | in0 => exact hin0
    | in1 => exact hin1
    | dip => exact hdip
    | regNone => rfl
    | unmapped => rfl

/-- Each register is written at its own address only (R107, R108, R109). -/
theorem busWrite8_registers (s : State) (addr : Word) (v : Byte) :
    (busWrite8 s addr v).ie = (if effectiveAddress addr = 0x5000 then registerBit v else s.ie) ∧
    (busWrite8 s addr v).se = (if effectiveAddress addr = 0x5001 then registerBit v else s.se) ∧
    (busWrite8 s addr v).flip = (if effectiveAddress addr = 0x5003 then registerBit v else s.flip) := by
  rcases busWrite8_cases s addr v with ⟨_, _, _, h⟩ | ⟨hie, h⟩ | ⟨hse, h⟩ | ⟨hflip, h⟩ | ⟨_, _, _, h⟩ | ⟨_, _, _, _, _, h⟩ <;> rw [h]
  case inr.inl => simp [hie]
  case inr.inr.inl => simp [hse]
  case inr.inr.inr.inl => simp [hflip]
  all_goals refine ⟨(if_neg ?_).symm, (if_neg ?_).symm, (if_neg ?_).symm⟩ <;> omega

/-! ## Two byte writes -/

/-- The reply of the first of two WR8 is not read by the second. -/
theorem effectOf_wr8_wr8 (u v : Byte) :
    effectOf (.wr8 b v) (effectOf (.wr8 a u) s) = (busWrite8 (busWrite8 s a u) b v).reply .nothing := by
  simp only [effectOf, busWrite8_reply]
  rfl

theorem effectOf_wr16 (addr v : Word) :
    effectOf (.wr16 addr v) s = effectOf (.wr8 (nextAddress addr) (highByte v)) (effectOf (.wr8 addr (lowByte v)) s) :=
  (effectOf_wr8_wr8 _ _).symm

theorem effectOf_wr8_comm (u v : Byte) (hwf : Memory.wf 0x1000 s.ram = true) (hab : effectiveAddress a ≠ effectiveAddress b) :
    effectOf (.wr8 b v) (effectOf (.wr8 a u) s) = effectOf (.wr8 a u) (effectOf (.wr8 b v) s) := by
  rw [effectOf_wr8_wr8, effectOf_wr8_wr8, busWrite8_comm s u v hwf hab]

/-- A second WR8 is performed as the first is: that one leaves the phase. -/
theorem exec_wr8_after_wr8 (u v : Byte) (hphase : s.phase = .run) :
    exec (.wr8 b v) (effectOf (.wr8 a u) s) = .next (effectOf (.wr8 b v) (effectOf (.wr8 a u) s)) :=
  exec_bus_of_run rfl ((effectOf_wr8_phase a u).trans hphase)

/-! ## Two byte reads -/

/-- The byte at the next address above the byte at the address (R113, R49). -/
theorem busRead16_eq_ofNat (s : State) (addr : Word) :
    busRead16 s addr = BitVec.ofNat 16 ((busRead8 s (nextAddress addr)).toNat * 256 + (busRead8 s addr).toNat) :=
  (BitVec.toNat_eq_nat.1 (append_toNat _ _)).2

end Sys2Proof.Machine

namespace Sys2Proof.Proofs

open Sys2Proof.Machine

/-- Settles O15: RUN admits RD8, and the byte read is that of R45's column. -/
theorem byteReadFollowsTheMap : Obligations.ByteReadFollowsTheMap := by
  intro s addr hphase
  rw [← busRead8_eq_spec_readByte]
  exact ⟨encode_rd8 addr, exec_bus_of_run rfl hphase⟩

/-- Settles O17, field by field over what a byte write leaves. -/
theorem byteWriteFollowsTheMap : Obligations.ByteWriteFollowsTheMap := by
  intro s addr v hphase hwf
  simp only [spec_ea_eq, Spec.bit0, ← registerBit_eq]
  obtain ⟨hie, hse, hflip⟩ := busWrite8_registers s addr v
  refine ⟨encode_wr8 addr v, _, exec_bus_of_run rfl hphase, fun o => busWrite8_ram s addr v o hwf, hie, hse, hflip, fun k hk => ?_, ?_⟩
  · have hsprpos := effectOf_wr8_sprpos (s := s) (addr := addr) v hk
    rw [Vector.getElem?_eq_getElem hk, Vector.getElem?_eq_getElem hk, ← apply_ite some] at hsprpos
    exact Option.some.inj hsprpos
  · obtain ⟨_, _, _, _, _, h⟩ := onlyBusFields_busWrite8 s addr v
    rw [effectOf, h]
    rfl

/-- Settles O18: after the write RD8 of its address finds the byte, and RD8 of every other effective address what it found before. -/
theorem ramWriteReadsBack : Obligations.RamWriteReadsBack := by
  intro s addr v hphase hwf hlo hhi
  rw [spec_ea_eq] at hlo hhi
  have hphase' : (effectOf (.wr8 addr v) s).phase = .run := (effectOf_wr8_phase addr v).trans hphase
  have hread (b : Word) : busRead8 (effectOf (.wr8 addr v) s) b = if effectiveAddress b = effectiveAddress addr then v else busRead8 s b := by
    rw [effectOf, busRead8_reply, busRead8_busWrite8 v hwf]
    exact if_congr (by omega) rfl rfl
  refine ⟨_, exec_bus_of_run rfl hphase, ?_, fun other hother => ⟨busRead8 s other, exec_bus_of_run rfl hphase, ?_⟩⟩
  · rw [exec_bus_of_run rfl hphase', effectOf, hread, if_pos rfl]
    rfl
  · rw [spec_ea_eq, spec_ea_eq] at hother
    rw [exec_bus_of_run rfl hphase', effectOf, hread, if_neg hother]
    rfl

/-- Settles O22: the two bytes of a word never share an effective address, so their writes commute. -/
theorem wordWriteOrderIsUnobservable : Obligations.WordWriteOrderIsUnobservable := by
  intro s addr v hphase hwf
  rw [ofNat_succ_eq_nextAddress, ofNat_mod_eq_lowByte, ofNat_div_eq_highByte]
  refine ⟨_, _, exec_bus_of_run rfl hphase, exec_wr8_after_wr8 _ _ hphase, ?_⟩
  rw [exec_bus_of_run rfl hphase, effectOf_wr16, effectOf_wr8_comm _ _ hwf (effectiveAddress_next_ne addr)]

/-- Settles O20: RUN admits the three reads, and the word read is made of the two bytes read. -/
theorem wordReadIsTwoByteReads : Obligations.WordReadIsTwoByteReads := by
  intro s addr hphase
  rw [ofNat_succ_eq_nextAddress]
  refine ⟨encode_rd16 addr, _, _, exec_bus_of_run rfl hphase, exec_bus_of_run rfl hphase, ?_⟩
  rw [← busRead16_eq_ofNat]
  exact exec_bus_of_run rfl hphase

/-- Settles O21: WR16 has the effect of the two WR8, and RUN admits each of the three. -/
theorem wordWriteIsTwoByteWrites : Obligations.WordWriteIsTwoByteWrites := by
  intro s addr v hphase
  rw [ofNat_succ_eq_nextAddress, ofNat_mod_eq_lowByte, ofNat_div_eq_highByte]
  refine ⟨encode_wr16 addr v, _, _, exec_bus_of_run rfl hphase, exec_wr8_after_wr8 _ _ hphase, ?_⟩
  rw [exec_bus_of_run rfl hphase, effectOf_wr16]

/-- Settles O23: RUN admits IN, whose effect is the reply 0x00. -/
theorem portInputReturnsZero : Obligations.PortInputReturnsZero :=
  fun _ port hphase => ⟨encode_inp port, exec_bus_of_run rfl hphase⟩

/-- Settles O24, by the port: 0, or another. -/
theorem portOutputLatchesTheVector : Obligations.PortOutputLatchesTheVector := by
  intro s port val hphase
  refine ⟨encode_out port val, ?_⟩
  rw [exec_bus_of_run rfl hphase, effectOf]
  by_cases hport : port = 0
  · rw [if_pos hport, portWrite, if_pos hport]
    rfl
  · rw [if_neg hport, portWrite_of_ne_zero val hport]
    rfl

end Sys2Proof.Proofs
end

section
/-! The input latches (42_input_latch.md): a key event in the masks of R118's table, and a key event repeated (R119, R120). -/

namespace Sys2Proof.Machine

variable {i : Instr} {s : State} {key : Key}

/-- RUN and COMPOSED perform every key event (R160). -/
theorem exec_key_of_run_or_composed (h : txnClass i = .key) (hphase : s.phase = .run ∨ s.phase = .composed) :
    exec i s = .next (effectOf i s) :=
  exec_of_admitted (admission_key h hphase)

/-- Setting a bit to the opposite of what it is flips it and no other. -/
theorem setBit_not_eq_xor (v : Byte) {n : Nat} (hn : n < 8) : setBit v n (!v.getLsbD n) = v ^^^ ((1 : Byte) <<< n) := by
  refine BitVec.eq_of_getLsbD_eq fun j _ => ?_
  rw [setBit_getLsbD v n _ j hn, BitVec.getLsbD_xor, show (1 : Byte) <<< n = BitVec.twoPow 8 n from (BitVec.twoPow_eq 8 n).symm,
    BitVec.getLsbD_twoPow]
  by_cases hj : j = n
  · simp [hj, hn]
  · simp [hj, Ne.symm hj]

/-! ## KEYDN -/

/-- A momentary button clears the one bit that its masks leave out; a toggle's masks and an unrecognised key's leave out none (R118, R119). -/
theorem keyDown_eq_and_masks (s : State) (key : Key) :
    keyDown s key = { s with in0 := s.in0 &&& Spec.in0Mask key, in1 := s.in1 &&& Spec.in1Mask key } := by
  have hfull (v : Byte) : v &&& 0xFF = v := BitVec.and_allOnes
  cases key with
  | up | down | left | right | coin1 | coin2 | credit =>
    rw [Spec.in1Mask, hfull]
    rfl
  | start1 | start2 =>
    rw [Spec.in0Mask, hfull]
    rfl
  | service | test | unrecognised =>
    rw [Spec.in0Mask, Spec.in1Mask, hfull, hfull]
    rfl

theorem effectOf_keydn (s : State) (key : Key) :
    effectOf (.keydn key) s =
      { s with in0 := s.in0 &&& Spec.in0Mask key, in1 := s.in1 &&& Spec.in1Mask key, resp := .nothing } := by
  rw [effectOf, keyDown_eq_and_masks]
  rfl

theorem effectOf_keydn_twice (s : State) (key : Key) :
    effectOf (.keydn key) (effectOf (.keydn key) s) = effectOf (.keydn key) s := by
  simp only [effectOf_keydn, BitVec.and_assoc, BitVec.and_self]

/-! ## KEYUP -/

/-- A full mask leaves out no bit to set. -/
theorem or_not_full (v : Byte) : v ||| ~~~0xFF = v := BitVec.or_zero

/-- A momentary button sets the bit that its masks leave out, a toggle flips its own, an unrecognised key changes none (R118, R120). -/
theorem keyUp_eq_or_masks_xor_flips (s : State) (key : Key) :
    keyUp s key = { s with
      in0 := (s.in0 ||| ~~~Spec.in0Mask key) ^^^ Spec.in0Flip key
      in1 := (s.in1 ||| ~~~Spec.in1Mask key) ^^^ Spec.in1Flip key } := by
  have hstay (v : Byte) : v ^^^ 0x00 = v := BitVec.xor_zero
  cases key with
  | up | down | left | right | coin1 | coin2 | credit =>
    rw [Spec.in1Mask, or_not_full, Spec.in0Flip, Spec.in1Flip, if_neg nofun, if_neg nofun, hstay, hstay]
    rfl
  | start1 | start2 =>
    rw [Spec.in0Mask, or_not_full, Spec.in0Flip, Spec.in1Flip, if_neg nofun, if_neg nofun, hstay, hstay]
    rfl
  | service =>
    rw [Spec.in0Mask, Spec.in1Mask, or_not_full, or_not_full, Spec.in0Flip, Spec.in1Flip, if_pos rfl, if_neg nofun, hstay]
    exact congrArg (s.setLatch .in0) (setBit_not_eq_xor s.in0 (by decide))
  | test =>
    rw [Spec.in0Mask, Spec.in1Mask, or_not_full, or_not_full, Spec.in0Flip, Spec.in1Flip, if_neg nofun, if_pos rfl, hstay]
    exact congrArg (s.setLatch .in1) (setBit_not_eq_xor s.in1 (by decide))
  | unrecognised =>
    rw [Spec.in0Mask, Spec.in1Mask, or_not_full, or_not_full, Spec.in0Flip, Spec.in1Flip, if_neg nofun, if_neg nofun, hstay, hstay]
    rfl

theorem effectOf_keyup (s : State) (key : Key) :
    effectOf (.keyup key) s = { s with
      in0 := (s.in0 ||| ~~~Spec.in0Mask key) ^^^ Spec.in0Flip key
      in1 := (s.in1 ||| ~~~Spec.in1Mask key) ^^^ Spec.in1Flip key
      resp := .nothing } := by
  rw [effectOf, keyUp_eq_or_masks_xor_flips]
  rfl

/-- A toggle's masks leave out no bit, so its key-up only flips (R120). -/
theorem effectOf_keyup_of_toggle (s : State) (h : key = .service ∨ key = .test) :
    effectOf (.keyup key) s =
      { s with in0 := s.in0 ^^^ Spec.in0Flip key, in1 := s.in1 ^^^ Spec.in1Flip key, resp := .nothing } := by
  rw [effectOf_keyup]
  rcases h with rfl | rfl <;> rw [Spec.in0Mask, Spec.in1Mask, or_not_full, or_not_full]

theorem effectOf_keyup_twice_of_toggle (s : State) (h : key = .service ∨ key = .test) :
    effectOf (.keyup key) (effectOf (.keyup key) s) = { s with resp := .nothing } := by
  simp only [effectOf_keyup_of_toggle _ h, xor_cancel_right]

/-- The bit that a toggle flips is one of its latch (R118). -/
theorem effectOf_keyup_ne_of_toggle (s : State) (h : key = .service ∨ key = .test) :
    (effectOf (.keyup key) s).in0 ≠ s.in0 ∨ (effectOf (.keyup key) s).in1 ≠ s.in1 := by
  have hflip (v : Byte) : v ^^^ 0x10 ≠ v := fun e => absurd (xor_left_eq_self_iff.1 e) (by decide)
  rw [effectOf_keyup_of_toggle s h]
  rcases h with rfl | rfl
  · exact .inl (hflip s.in0)
  · exact .inr (hflip s.in1)

end Sys2Proof.Machine

namespace Sys2Proof.Proofs

open Sys2Proof.Machine

/-- Settles O27: a key event leaves the phase, so it is performed again; a mask applied twice is applied once, and a flip undoes itself. -/
theorem repeatedKeyEvents : Obligations.RepeatedKeyEvents := by
  intro s key hphase
  refine ⟨⟨_, exec_key_of_run_or_composed rfl hphase, ?_⟩, fun htoggle =>
    ⟨_, exec_key_of_run_or_composed rfl hphase, effectOf_keyup_ne_of_toggle s htoggle, ?_⟩⟩
  · have hagain : (effectOf (.keydn key) s).phase = s.phase := by rw [effectOf_keydn]
    rw [exec_key_of_run_or_composed rfl (hagain ▸ hphase), effectOf_keydn_twice]
  · have hagain : (effectOf (.keyup key) s).phase = s.phase := by rw [effectOf_keyup]
    rw [exec_key_of_run_or_composed rfl (hagain ▸ hphase), effectOf_keyup_twice_of_toggle s htoggle]

/-- Settles O25: both phases admit KEYDN, whose effect is R118's masks. -/
theorem keyDownPressesTheButton : Obligations.KeyDownPressesTheButton := by
  intro s key hphase
  rw [exec_key_of_run_or_composed rfl hphase, effectOf_keydn]

/-- Settles O26: both phases admit KEYUP, whose effect is R118's masks and the toggles' flips. -/
theorem keyUpReleasesOrToggles : Obligations.KeyUpReleasesOrToggles := by
  intro s key hphase
  rw [exec_key_of_run_or_composed rfl hphase, effectOf_keyup]

end Sys2Proof.Proofs
end

section
/-! FrameComposer (43_frame_composer.md): the pixel loops of the passes leave what their draw lists paint (R126 to R136), each pixel of the tile
layer has one draw (R130), and a pixel of the frame is that of the lowest sprite slot that writes it, or of the tile layer (R131). -/

namespace Sys2Proof.Machine

variable {s t : State} {d : Draw} {ds es : List Draw} {y x : Nat} {p : Pixel}

/-- RUN performs COMPOSE, which changes the frame, the phase and the response (R124). -/
theorem exec_compose_of_run (hphase : s.phase = .run) :
    exec .compose s = .next { s with fb := composeFrame s, phase := .composed, resp := .nothing } :=
  exec_of_admitted (admission_compose_iff.2 hphase)

/-! ## Loops and draws -/

/-- A change of the frame that leaves, at every pixel, what painting the draws over it leaves. -/
def Paints (f : Framebuffer → Framebuffer) (ds : List Draw) : Prop :=
  ∀ fb y x, y < 288 → x < 224 → gridGet (f fb) 0 y x = paint ds y x (gridGet fb 0 y x)

theorem Paints.comp {f g : Framebuffer → Framebuffer} (hg : Paints g es) (hf : Paints f ds) : Paints (fun fb => g (f fb)) (ds ++ es) := by
  intro fb y x hy hx
  rw [hg _ y x hy hx, hf fb y x hy hx, paint_append]

/-- A loop paints what its rounds paint, one after another. -/
theorem Paints.foldl {f : Framebuffer → Nat → Framebuffer} {draws : Nat → List Draw} (h : ∀ k, Paints (fun fb => f fb k) (draws k))
    (ks : List Nat) : Paints (fun fb => ks.foldl f fb) (ks.flatMap draws) := by
  induction ks with
  | nil => exact fun _ _ _ _ _ => rfl
  | cons k ks ih => exact ih.comp (h k)

theorem Paints.foldl_map {f : Framebuffer → Nat → Framebuffer} {draw : Nat → Draw} (h : ∀ k, Paints (fun fb => f fb k) [draw k])
    (ks : List Nat) : Paints (fun fb => ks.foldl f fb) (ks.map draw) :=
  List.map_eq_flatMap ▸ Paints.foldl h ks

theorem Draw.at_eq (d : Draw) :
    d.at y x = if (d.y0 ≤ y ∧ (y : Int) < d.y0 + d.h) ∧ d.x0 ≤ x ∧ (x : Int) < d.x0 + d.w then
      d.pixel (y - d.y0).toNat (x - d.x0).toNat else none :=
  if_congr (by simp only [Draw.inRow, Draw.inColumn, Bool.and_eq_true, decide_eq_true_eq]) rfl rfl

/-- Two loops over the rows and columns of a block, whose body writes the block's pixel there and no other, paint the block. -/
theorem paints_pixelLoops (d : Draw) {write : Nat → Nat → Framebuffer → Framebuffer}
    (hwrite : ∀ r c fb y x, y < 288 → x < 224 → gridGet (write r c fb) 0 y x =
      if (y : Int) = d.y0 + r ∧ (x : Int) = d.x0 + c then (d.pixel r c).getD (gridGet fb 0 y x) else gridGet fb 0 y x) :
    Paints (fun fb => (List.range d.h).foldl (fun fb r => (List.range d.w).foldl (fun fb c => write r c fb) fb) fb) [d] := by
  intro fb y x hy hx
  rw [paint_cons, paint_nil, Draw.at_eq]
  split
  next hin =>
    rw [loops_gridGet 0 write d.pixel d.h d.w (y - d.y0).toNat (x - d.x0).toNat, if_pos (by omega)]
    intro r c fb hr hc
    rw [hwrite r c fb y x hy hx]
    exact if_congr (by omega) rfl rfl
  next hout =>
    -- No counter writes the pixel: the one the loops are said to hit is past their end.
    rw [loops_gridGet 0 write (fun _ _ => none) d.h d.w d.h d.w, if_neg (by omega), Option.getD_none]
    intro r c fb hr hc
    rw [hwrite r c fb y x hy hx, if_neg (by omega), if_neg (by omega)]

/-! ## Tiles -/

theorem spec_slotOf_eq (b : Byte) : Spec.slotOf b = paletteSlot b := (paletteSlot_eq b).symm

/-- The colour of a tile's pixel, in the model's names for the planes and in the spec's numerals (R26, R126). -/
theorem spec_tileColour_eq (s : State) (o r c : Nat) :
    s.paletteEntry (Spec.slotOf (Memory.read s.ram (0x400 + o))) (s.tilePixel (Memory.read s.ram o) r c) =
      s.paletteEntry (paletteSlot (s.ramByte (palettePlane + o))) (s.tilePixel (s.ramByte (tilePlane + o)) r c) := by
  rw [spec_slotOf_eq, show tilePlane + o = o from Nat.zero_add o]
  rfl

theorem paints_drawTile (s : State) (o sx sy : Nat) : Paints (fun fb => Spec.drawTile s fb o sx sy) [drawTile s o sx sy] := by
  refine paints_pixelLoops (drawTile s o sx sy) fun r c fb y x hy hx => ?_
  rw [gridGet_gridSet fb 0 _ hy hx, spec_tileColour_eq]
  simp only [drawTile]
  exact if_congr (by omega) rfl rfl

theorem paints_tilePassBottom (s : State) : Paints (Spec.tilePassBottom s) (tilePassBottom s) := by
  simp only [tilePassBottom, Nat.zero_add]
  exact .foldl (fun _ => .foldl_map (fun _ => paints_drawTile s _ _ _) _) _

theorem paints_tilePassMain (s : State) : Paints (Spec.tilePassMain s) (tilePassMain s) :=
  .foldl (fun _ => .foldl_map (fun _ => paints_drawTile s _ _ _) _) _

theorem paints_tilePassTop (s : State) : Paints (Spec.tilePassTop s) (tilePassTop s) :=
  .foldl (fun _ => .foldl_map (fun _ => paints_drawTile s _ _ _) _) _

/-! ## Sprites -/

theorem transparencyKey_eq_keyColour (s : State) (i : Nat) : transparencyKey s (fetchSprite s i).slot = Spec.keyColour s i := by
  unfold transparencyKey Spec.keyColour Spec.spriteSlot
  rw [spec_slotOf_eq]
  cases s.tkey <;> rfl

/-- The pixels of a sprite draw are the resolved colours of R134 but for the key (R135). -/
theorem drawSprite_pixel (s : State) (i r c : Nat) :
    (drawSprite s i).pixel r c =
      if Spec.spriteColour s i r c = Spec.keyColour s i then none else some (Spec.spriteColour s i r c) := by
  have hcolour : Spec.spriteColour s i r c = s.paletteEntry (fetchSprite s i).slot (s.spritePixel (fetchSprite s i).number
      (flipped (fetchSprite s i).vflip r) (flipped (fetchSprite s i).hflip c)) := by
    simp only [Spec.spriteColour, Spec.spriteSlot, spec_slotOf_eq, ← spriteNumber_eq]
    rfl
  rw [hcolour, ← transparencyKey_eq_keyColour]
  rfl

/-- Clipping is not seen inside the frame (R136). -/
theorem gridGet_clippedSet (fb : Framebuffer) (c : Pixel) (row column : Int) (hy : y < 288) (hx : x < 224) :
    gridGet (if 0 ≤ column ∧ column ≤ 223 ∧ 0 ≤ row ∧ row ≤ 287 then gridSet fb row.toNat column.toNat c else fb) 0 y x =
      if (y : Int) = row ∧ (x : Int) = column then c else gridGet fb 0 y x := by
  split
  next hin =>
    rw [gridGet_gridSet fb 0 _ hy hx]
    exact if_congr (by omega) rfl rfl
  next hout => rw [if_neg (by omega)]

theorem paints_drawSprite (s : State) (i : Nat) : Paints (fun fb => Spec.drawSprite s fb i) [drawSprite s i] := by
  refine paints_pixelLoops (drawSprite s i) fun r c fb y x hy hx => ?_
  rw [drawSprite_pixel]
  split
  next hkey => rw [Option.getD_none, ite_self]
  next hkey => exact gridGet_clippedSet fb _ _ _ hy hx

theorem paints_spritePass (s : State) : Paints (Spec.spritePass s) (spritePass s) :=
  .foldl_map (fun i => paints_drawSprite s i) _

/-- The draw list, painted over the old frame, is what the passes run in the order of R124 leave in it. -/
theorem composeFrame_eq_composeLoops (s : State) : composeFrame s = Spec.composeLoops s := by
  have hpasses := (paints_spritePass s).comp ((paints_tilePassTop s).comp ((paints_tilePassMain s).comp (paints_tilePassBottom s)))
  refine grid_ext _ _ 0 fun y x hy hx => ?_
  rw [composeFrame_get s hy hx]
  exact (hpasses s.fb y x hy hx).symm

/-! ## The tile layer -/

/-- Everything the three tile passes draw. -/
def tilePasses (s : State) : List Draw := tilePassBottom s ++ tilePassMain s ++ tilePassTop s

theorem drawList_eq (s : State) : drawList s = tilePasses s ++ spritePass s := rfl

theorem drawTile_writes_iff {o sx sy : Nat} : ((drawTile s o sx sy).at y x).isSome = true ↔ sy = y / 8 ∧ sx = x / 8 := by
  rw [drawTile_at, eq_comm (a := sy), eq_comm (a := sx)]
  split <;> simp [*]

/-- The draws of a loop over rows and columns that pass a test, when only the draw of one place can, and only if `inside` holds. -/
theorem filter_loops {rows columns : List Nat} (hrows : rows.Nodup) (hcolumns : columns.Nodup) {draw : Nat → Nat → Draw} {test : Draw → Bool}
    {inside : Prop} [Decidable inside] {row column : Nat} (hmem : inside → row ∈ rows ∧ column ∈ columns)
    (htest : ∀ r ∈ rows, ∀ c ∈ columns, test (draw r c) = true ↔ inside ∧ r = row ∧ c = column) :
    (rows.flatMap fun r => columns.map (draw r)).filter test = if inside then [draw row column] else [] := by
  have hplaces : (rows.flatMap fun r => columns.map (draw r)) = (rows ×ˢ columns).map fun place => draw place.1 place.2 := by
    simp [SProd.sprod, List.product, List.map_flatMap, Function.comp_def]
  rw [hplaces, List.filter_map]
  split
  next hin =>
    obtain ⟨hrow, hcolumn⟩ := hmem hin
    have hone : (rows ×ˢ columns).filter (test ∘ fun place => draw place.1 place.2) = (rows ×ˢ columns).filter (· == (row, column)) := by
      refine List.filter_congr fun place hplace => ?_
      obtain ⟨hr, hc⟩ := List.mem_product.1 hplace
      rw [Bool.eq_iff_iff, Function.comp_apply, htest _ hr _ hc, beq_iff_eq, Prod.ext_iff, and_iff_right hin]
    rw [hone, List.filter_beq, List.count_eq_one_of_mem (hrows.product hcolumns) (List.mem_product.2 ⟨hrow, hcolumn⟩)]
    rfl
  next hout =>
    rw [List.filter_eq_nil_iff.2, List.map_nil]
    intro place hplace
    obtain ⟨hr, hc⟩ := List.mem_product.1 hplace
    rw [Function.comp_apply, htest _ hr _ hc]
    exact fun h => hout h.1

theorem nodup_span (a b : Nat) : (span a b).Nodup := List.nodup_range'

/-- The draws of a tile pass that write a pixel, when its loops reach the pixel's screen tile at one place only, and only if `inside` holds. -/
theorem filter_tileLoops {a b a' b' row column : Nat} {offset sx sy : Nat → Nat → Nat} {inside : Prop} [Decidable inside]
    (hmem : inside → (a ≤ row ∧ row ≤ b) ∧ a' ≤ column ∧ column ≤ b')
    (hplace : ∀ r c, a ≤ r ∧ r ≤ b → a' ≤ c ∧ c ≤ b' → (sy r c = y / 8 ∧ sx r c = x / 8 ↔ inside ∧ r = row ∧ c = column)) :
    ((span a b).flatMap fun r => (span a' b').map fun c => drawTile s (offset r c) (sx r c) (sy r c)).filter (fun d => (d.at y x).isSome) =
      if inside then [drawTile s (offset row column) (x / 8) (y / 8)] else [] := by
  rw [filter_loops (nodup_span a b) (nodup_span a' b') (inside := inside) (row := row) (column := column)]
  · refine if_ctx_congr Iff.rfl (fun hin => ?_) fun _ => rfl
    obtain ⟨hrow, hcolumn⟩ := hmem hin
    obtain ⟨hsy, hsx⟩ := (hplace row column hrow hcolumn).2 ⟨hin, rfl, rfl⟩
    rw [hsy, hsx]
  · simpa only [mem_span] using hmem
  · intro r hr c hc
    rw [drawTile_writes_iff]
    exact hplace r c (mem_span.1 hr) (mem_span.1 hc)

theorem filter_tilePassBottom (hy : y < 288) (hx : x < 224) :
    (tilePassBottom s).filter (fun d => (d.at y x).isSome) =
      if 34 ≤ y / 8 then [drawTile s (0x000 + 32 * (y / 8 - 34) + (29 - x / 8)) (x / 8) (y / 8)] else [] :=
  filter_tileLoops (by omega) (by omega)

theorem filter_tilePassMain (hx : x < 224) :
    (tilePassMain s).filter (fun d => (d.at y x).isSome) =
      if 2 ≤ y / 8 ∧ y / 8 < 34 then [drawTile s (0x040 + 32 * (27 - x / 8) + (y / 8 - 2)) (x / 8) (y / 8)] else [] :=
  filter_tileLoops (by omega) (by omega)

theorem filter_tilePassTop (hx : x < 224) :
    (tilePassTop s).filter (fun d => (d.at y x).isSome) =
      if y / 8 < 2 then [drawTile s (0x3C0 + 32 * (y / 8) + (29 - x / 8)) (x / 8) (y / 8)] else [] :=
  filter_tileLoops (by omega) (by omega)

/-- The one tile draw that writes a pixel is that of the tile which the transforms place there (R127 to R130). -/
theorem filter_tilePasses (s : State) (hy : y < 288) (hx : x < 224) :
    (tilePasses s).filter (fun d => (d.at y x).isSome) = [drawTile s (Spec.tileOffset (x / 8) (y / 8)) (x / 8) (y / 8)] := by
  rw [tilePasses, List.filter_append, List.filter_append, filter_tilePassBottom hy hx, filter_tilePassMain hx, filter_tilePassTop hx,
    Spec.tileOffset]
  rcases Nat.lt_or_ge (y / 8) 2 with htop | hge
  · rw [if_neg (by omega), if_neg (by omega), if_pos htop, if_pos htop]
    rfl
  rcases Nat.lt_or_ge (y / 8) 34 with hmain | hbottom
  · rw [if_neg (by omega), if_pos ⟨hge, hmain⟩, if_neg (by omega), if_neg (by omega), if_pos hmain]
    rfl
  · rw [if_pos hbottom, if_neg (by omega), if_neg (by omega), if_neg (by omega), if_neg (by omega), Nat.zero_add]
    rfl

/-- Only the blocks that write at a pixel count there. -/
theorem paint_filter_isSome : paint (ds.filter fun d => (d.at y x).isSome) y x p = paint ds y x p := by
  induction ds generalizing p with
  | nil => rfl
  | cons d ds ih =>
    rw [List.filter_cons, paint_cons]
    split
    next => rw [paint_cons, ih]
    next h => rw [ih, Option.not_isSome_iff_eq_none.1 h, Option.getD_none]

theorem paint_tilePasses (s : State) (hy : y < 288) (hx : x < 224) : paint (tilePasses s) y x p = Spec.tileLayer s y x := by
  rw [← paint_filter_isSome, filter_tilePasses s hy hx, paint_cons, paint_nil, drawTile_at, if_pos ⟨rfl, rfl⟩, Option.getD_some,
    ← spec_tileColour_eq, Spec.tileLayer]

/-! ## The sprite layers -/

theorem drawSprite_at_eq_spriteLayer (s : State) (i : Nat) : (drawSprite s i).at y x = Spec.spriteLayer s i y x := by
  rw [drawSprite_at, drawSprite_pixel, Spec.spriteLayer]
  refine if_congr ?_ rfl rfl
  change Spec.spriteTop s i ≤ y ∧ (y : Int) < Spec.spriteTop s i + 16 ∧ Spec.spriteLeft s i ≤ x ∧ (x : Int) < Spec.spriteLeft s i + 16 ↔ _
  omega

/-- Slot 0 is painted last, so the lowest slot that writes a pixel decides it (R131). -/
theorem paint_spritePass (s : State) :
    paint (spritePass s) y x p = ((List.range 8).findSome? fun i => Spec.spriteLayer s i y x).getD p := by
  rw [paint_eq_findSome, spritePass, ← List.map_reverse, List.reverse_reverse, List.findSome?_map]
  simp only [Function.comp_def, drawSprite_at_eq_spriteLayer]

/-- A pixel of the composed frame by its layers, the lowest sprite slot on top and the tiles below (R130, R131). -/
theorem composeFrame_layers (s : State) (hy : y < 288) (hx : x < 224) :
    gridGet (composeFrame s) 0 y x = ((List.range 8).findSome? fun i => Spec.spriteLayer s i y x).getD (Spec.tileLayer s y x) := by
  rw [composeFrame_get s hy hx, drawList_eq, paint_append, paint_spritePass, paint_tilePasses s hy hx]

/-! ## What the layers read -/

/-- Frames with the same layers at every pixel are the same. -/
theorem composeFrame_congr (htile : ∀ y x, y < 288 → x < 224 → Spec.tileLayer s y x = Spec.tileLayer t y x)
    (hsprite : ∀ i y x, i < 8 → x < 224 → Spec.spriteLayer s i y x = Spec.spriteLayer t i y x) : composeFrame s = composeFrame t := by
  refine grid_ext _ _ 0 fun y x hy hx => ?_
  have hslots : (List.range 8).findSome? (fun i => Spec.spriteLayer s i y x) = (List.range 8).findSome? fun i => Spec.spriteLayer t i y x := by
    rw [← List.head?_filterMap, ← List.head?_filterMap,
      List.filterMap_congr fun i hi => hsprite i y x (List.mem_range.1 hi) hx]
  rw [composeFrame_layers s hy hx, composeFrame_layers t hy hx, hslots, htile y x hy hx]

/-- The same decoded tables and the same reading of the transparency key (R36 to R38, R135). -/
structure SameGraphics (s t : State) : Prop where
  tile : s.tile = t.tile
  sprite : s.sprite = t.sprite
  pal : s.pal = t.pal
  tkey : s.tkey = t.tkey

theorem SameGraphics.paletteEntry (h : SameGraphics s t) : s.paletteEntry = t.paletteEntry := paletteEntry_congr h.pal

theorem SameGraphics.tilePixel (h : SameGraphics s t) : s.tilePixel = t.tilePixel := by
  funext n r c
  simp only [State.tilePixel, h.tile]

theorem SameGraphics.spritePixel (h : SameGraphics s t) : s.spritePixel = t.spritePixel := by
  funext n r c
  simp only [State.spritePixel, h.sprite]

/-- The places of the screen's tiles are in the first 0x400 bytes of their plane. -/
theorem tileOffset_lt {sx sy : Nat} (hx : sx < 28) (hy : sy < 36) : Spec.tileOffset sx sy < 0x400 := by
  unfold Spec.tileOffset
  split
  · omega
  · split <;> omega

/-- The tile layer reads the two planes, below offset 0x800 (R26, R125). -/
theorem tileLayer_congr (h : SameGraphics s t) (hram : ∀ o, o < 0x800 → Memory.read s.ram o = Memory.read t.ram o) (hy : y < 288) (hx : x < 224) :
    Spec.tileLayer s y x = Spec.tileLayer t y x := by
  have ho : Spec.tileOffset (x / 8) (y / 8) < 0x400 := tileOffset_lt (by omega) (by omega)
  rw [Spec.tileLayer, Spec.tileLayer, hram _ (by omega), hram _ (by omega), h.paletteEntry, h.tilePixel]

/-- A sprite layer reads its slot's two attribute bytes and two positions (R125, R132). -/
theorem spriteLayer_congr {i : Nat} (h : SameGraphics s t) (hsprpos : s.sprpos = t.sprpos)
    (hcode : Memory.read s.ram (0xFF0 + 2 * i) = Memory.read t.ram (0xFF0 + 2 * i))
    (hpal : Memory.read s.ram (0xFF1 + 2 * i) = Memory.read t.ram (0xFF1 + 2 * i)) : Spec.spriteLayer s i = Spec.spriteLayer t i := by
  have hleft : Spec.spriteLeft s i = Spec.spriteLeft t i := by rw [Spec.spriteLeft, Spec.spriteLeft, hsprpos]
  have htop : Spec.spriteTop s i = Spec.spriteTop t i := by rw [Spec.spriteTop, Spec.spriteTop, hsprpos]
  have hslot : Spec.spriteSlot s i = Spec.spriteSlot t i := congrArg Spec.slotOf hpal
  have hcodeByte : Spec.codeByte s i = Spec.codeByte t i := hcode
  have hcolour (r c : Nat) : Spec.spriteColour s i r c = Spec.spriteColour t i r c := by
    rw [Spec.spriteColour, Spec.spriteColour, hslot, hcodeByte, h.paletteEntry, h.spritePixel]
  have hkey : Spec.keyColour s i = Spec.keyColour t i := by
    rw [Spec.keyColour, Spec.keyColour, hslot, h.tkey, h.paletteEntry]
  funext y x
  rw [Spec.spriteLayer, Spec.spriteLayer, hleft, htop, hcolour, hkey]

/-- A slot at X position 0 or 255 writes no pixel of the frame (R136). -/
theorem spriteLayer_of_offScreen {i : Nat} (hx : x < 224) (hposX : s.sprpos[2 * i]? = some 0 ∨ s.sprpos[2 * i]? = some 255) :
    Spec.spriteLayer s i y x = none := by
  have hleft : Spec.spriteLeft s i = 239 ∨ Spec.spriteLeft s i = -16 := by
    rcases hposX with h | h <;> simp [Spec.spriteLeft, h]
  rw [Spec.spriteLayer, if_neg (by omega)]

/-- The two attribute bytes of a slot that is off the screen reach no pixel: its own layer is empty there, and no other layer reads them. -/
theorem composeFrame_eq_of_offScreen {i : Nat}
    (hram : ∀ o, o ≠ 0xFF0 + 2 * i → o ≠ 0xFF1 + 2 * i → Memory.read s.ram o = Memory.read t.ram o) (h : SameGraphics s t)
    (hsprpos : s.sprpos = t.sprpos) (hposX : s.sprpos[2 * i]? = some 0 ∨ s.sprpos[2 * i]? = some 255) : composeFrame s = composeFrame t := by
  refine composeFrame_congr (fun y x hy hx => tileLayer_congr h (fun o ho => hram o (by omega) (by omega)) hy hx) fun j y x hj hx => ?_
  by_cases hslot : j = i
  · rw [hslot, spriteLayer_of_offScreen hx hposX, spriteLayer_of_offScreen hx (hsprpos ▸ hposX)]
  · exact congrFun₂ (spriteLayer_congr h hsprpos (hram _ (by omega) (by omega)) (hram _ (by omega) (by omega))) y x

/-! ## The output contract -/

/-- Lists of one length, joined, have that length times their number. -/
theorem length_flatMap_of_length_eq {α β : Type} {f : α → List β} {n : Nat} (hf : ∀ a, (f a).length = n) (l : List α) :
    (l.flatMap f).length = n * l.length := by
  rw [List.length_flatMap, List.map_congr_left fun a _ => hf a, List.map_const', List.sum_replicate, smul_eq_mul, mul_comm]

/-- Lists of one length, joined: element `k` of list `i`. -/
theorem getElem?_flatMap_of_length_eq {α β : Type} {f : α → List β} {n : Nat} (hf : ∀ a, (f a).length = n) {l : List α} {i k : Nat}
    (hi : i < l.length) (hk : k < n) : (l.flatMap f)[n * i + k]? = (f l[i])[k]? := by
  induction l generalizing i with
  | nil => cases hi
  | cons a l ih =>
    rw [List.flatMap_cons]
    cases i with
    | zero => rw [Nat.mul_zero, Nat.zero_add, List.getElem?_append_left (hf a ▸ hk), List.getElem_cons_zero]
    | succ i =>
      have hlater : n * (i + 1) + k = n + (n * i + k) := by ring
      rw [hlater, List.getElem?_append_right (by rw [hf]; omega), hf, Nat.add_sub_cancel_left, ih (Nat.lt_of_succ_lt_succ hi),
        List.getElem_cons_succ]

theorem length_pixelBytes (p : Pixel) : (pixelBytes p).length = 4 := rfl

/-- Byte `k` of a pixel word, the lowest first (R77). -/
theorem getElem?_pixelBytes (p : Pixel) {k : Nat} (hk : k < 4) : (pixelBytes p)[k]? = some (BitVec.ofNat 8 (p.toNat / 256 ^ k)) := by
  have hbyte : (pixelBytes p)[k]? = some (p.extractLsb' (8 * k) 8) := by
    match k, hk with
    | 0, _ | 1, _ | 2, _ | 3, _ => rfl
  rw [hbyte, BitVec.extractLsb', Nat.shiftRight_eq_div_pow, Nat.pow_mul]

theorem length_rowBytes (row : Vector Pixel 224) : (row.toList.flatMap pixelBytes).length = 896 := by
  rw [length_flatMap_of_length_eq length_pixelBytes, Vector.length_toList]

theorem length_framebufferBytes (f : Framebuffer) : (framebufferBytes f).length = 258048 := by
  rw [framebufferBytes, length_flatMap_of_length_eq length_rowBytes, Vector.length_toList]

/-- Byte `k` of the pixel at row `y`, column `x` of the buffer (R138). -/
theorem getElem?_framebufferBytes (f : Framebuffer) {k : Nat} (hy : y < 288) (hx : x < 224) (hk : k < 4) :
    (framebufferBytes f)[4 * (y * 224 + x) + k]? = some (BitVec.ofNat 8 ((gridGet f 0 y x).toNat / 256 ^ k)) := by
  have hoffset : 4 * (y * 224 + x) + k = 896 * y + (4 * x + k) := by ring
  rw [hoffset, framebufferBytes, getElem?_flatMap_of_length_eq length_rowBytes (by rwa [Vector.length_toList]) (by omega),
    getElem?_flatMap_of_length_eq length_pixelBytes (by rwa [Vector.length_toList]) hk, getElem?_pixelBytes _ hk, Vector.getElem_toList,
    Vector.getElem_toList, gridGet_eq f 0 hy hx]

end Sys2Proof.Machine

namespace Sys2Proof.Proofs

open Sys2Proof.Machine

/-- Settles O28: each loop of the pseudocode paints the draw list of its pass. -/
theorem composeRunsThePixelLoops : Obligations.ComposeRunsThePixelLoops := by
  intro s hphase
  rw [exec_compose_of_run hphase, composeFrame_eq_composeLoops]

/-- Settles O29: the layers of each pixel read these fields only, and no pixel is left of the old framebuffer. -/
theorem composeReadsOnlyItsInputs : Obligations.ComposeReadsOnlyItsInputs := by
  intro s t hs ht hplanes hattributes hsprpos htile hsprite hpal htkey
  have hgraphics : SameGraphics s t := ⟨htile, hsprite, hpal, htkey⟩
  have hframe : composeFrame s = composeFrame t :=
    composeFrame_congr (fun y x hy hx => tileLayer_congr hgraphics hplanes hy hx) fun i y x hi _ =>
      congrFun₂ (spriteLayer_congr hgraphics hsprpos (hattributes _ (by omega) (by omega)) (hattributes _ (by omega) (by omega))) y x
  exact ⟨composeFrame s, exec_compose_of_run hs, by rw [hframe, exec_compose_of_run ht]⟩

/-- Settles O30, by the layers of a composed pixel. -/
theorem lowestSpriteSlotIsOnTop : Obligations.LowestSpriteSlotIsOnTop :=
  fun s hphase => ⟨_, exec_compose_of_run hphase, fun _ _ hy hx => composeFrame_layers s hy hx⟩

/-- Settles O31: of all tile draws, those that write a pixel are a list of one. -/
theorem tilePassDrawsEachPixelOnce : Obligations.TilePassDrawsEachPixelOnce :=
  fun s _ _ hy hx => congrArg List.length (filter_tilePasses s hy hx)

/-- Settles O33: the slot's two bytes are read for its own layer only, which is empty on the screen. -/
theorem offScreenSpriteIsNotDrawn : Obligations.OffScreenSpriteIsNotDrawn := by
  intro s i code pal hphase hwf hi hposX
  have hoffset : 0xFF0 + 2 * i < 0x1000 := by omega
  have hram (o : Nat) (hcode : o ≠ 0xFF0 + 2 * i) (hpal : o ≠ 0xFF1 + 2 * i) :
      Memory.read s.ram o = Memory.read ((s.setRam (0xFF0 + 2 * i) code).setRam (0xFF1 + 2 * i) pal).ram o := by
    rw [State.setRam_ram, State.setRam_ram, Memory.read_write (Memory.wf_write hwf hoffset), if_neg hpal, Memory.read_write hwf, if_neg hcode]
  refine ⟨composeFrame s, exec_compose_of_run hphase, ?_⟩
  rw [composeFrame_eq_of_offScreen hram ⟨rfl, rfl, rfl, rfl⟩ rfl hposX]
  exact exec_compose_of_run hphase

/-- Settles O34: rows of 896 bytes, pixels of 4, of which the lowest is an opaque alpha in a composed frame. -/
theorem outputBytesFollowTheContract : Obligations.OutputBytesFollowTheContract := by
  refine ⟨fun f => ⟨length_framebufferBytes f, fun y x k hy hx hk => getElem?_framebufferBytes f hy hx hk⟩, ?_⟩
  intro s hinv hphase y x hy hx
  have halpha : opaquePixel (gridGet s.fb 0 y x) := hinv.fb_opaque hphase y x hy hx
  have hbyte := getElem?_framebufferBytes s.fb hy hx (k := 0) (by omega)
  rw [Nat.add_zero, Nat.pow_zero, Nat.div_one] at hbyte
  rw [hbyte, ← halpha, BitVec.extractLsb', Nat.shiftRight_zero]

/-- Settles O32: the offsets of R133 in integers, for a byte of at most 255. -/
theorem spritePositionAndClipping : Obligations.SpritePositionAndClipping := by
  intro posX posY
  have hx : spriteX posX = 239 - (posX.toNat : Int) := by
    rw [spriteX]
    omega
  have hy : spriteY posY = 272 - (posY.toNat : Int) := by
    rw [spriteY]
    omega
  have hposX := posX.isLt
  have hposY := posY.isLt
  refine ⟨hx, hy, by omega, by omega, by omega, by omega, fun hends c hc => ?_⟩
  have hend : posX.toNat = 0 ∨ posX.toNat = 255 := hends.imp (congrArg BitVec.toNat) (congrArg BitVec.toNat)
  omega

end Sys2Proof.Proofs
end

section
/-! InterruptLine (44_interrupt.md): what an IRQCHK answers (R140), that nothing else requests (R141), and the enable bit and the vector that a
frame's events leave for it (R161, R164, R165). -/

namespace Sys2Proof.Machine

variable {i : Instr} {is : List Instr} {s t u : State} {v : Byte}

/-! ## IRQCHK -/

theorem effectOf_irqchk (s : State) :
    effectOf .irqchk s = { s with phase := .run, resp := if s.ie then .irqRequest s.vec else .nothing } := by
  rw [effectOf]
  split <;> rfl

/-- COMPOSED performs IRQCHK (R160). -/
theorem exec_irqchk_of_composed (hphase : s.phase = .composed) :
    exec .irqchk s = .next { s with phase := .run, resp := if s.ie then .irqRequest s.vec else .nothing } := by
  rw [exec_of_admitted (admission_irqchk_iff.2 hphase), effectOf_irqchk]

/-- Every other phase refuses IRQCHK (R160). -/
theorem admission_irqchk_of_ne_composed {p : Phase} (h : p ≠ .composed) :
    admission .irqchk p = some (if p = .inactive then .inactive (encode .irqchk) else .irqCheckOutOfPhase (encode .irqchk)) := by
  cases p with
  | composed => exact absurd rfl h
  | unloaded | inactive | run => rfl

/-- Every transaction replaces the response; an IRQCHK with IE set puts a request there, and nothing else does. -/
theorem effectOf_resp_eq_irqRequest (h : (effectOf i s).resp = .irqRequest v) : i = .irqchk ∧ s.ie = true ∧ v = s.vec := by
  cases i with
  | irqchk =>
    rw [effectOf_irqchk] at h
    dsimp only at h
    split at h
    next hie => exact ⟨rfl, hie, (Response.irqRequest.inj h).symm⟩
    next => cases h
  | decode => rcases load_cases s with ⟨-, e⟩ | ⟨-, e⟩ <;> rw [effectOf, e] at h <;> cases h
  | _ => cases h

/-! ## The enable bit and the vector after a bus write -/

theorem busWrite8_vec (s : State) (addr : Word) (v : Byte) : (busWrite8 s addr v).vec = s.vec := by
  obtain ⟨-, -, hvec, -⟩ := busWrite8_frame s addr v
  exact hvec

theorem busWrite8_ie (s : State) (addr : Word) (v : Byte) :
    (busWrite8 s addr v).ie = if Spec.ea addr = 0x5000 then Spec.bit0 v else s.ie := by
  rw [(busWrite8_registers s addr v).1, registerBit_eq, spec_ea_eq, Spec.bit0]

/-- One byte of a word at most reaches IE, since the two effective addresses differ (R114). -/
theorem busWrite16_ie (s : State) (addr v : Word) :
    (busWrite16 s addr v).ie =
      if Spec.ea addr = 0x5000 then decide (v.toNat % 2 = 1)
      else if Spec.ea (addr + 1) = 0x5000 then decide (v.toNat / 256 % 2 = 1) else s.ie := by
  have hne : Spec.ea (nextAddress addr) ≠ Spec.ea addr := by
    simpa only [spec_ea_eq] using effectiveAddress_next_ne addr
  have hlow : Spec.bit0 (lowByte v) = decide (v.toNat % 2 = 1) := by
    rw [Spec.bit0, lowByte_toNat, Nat.mod_mod_of_dvd _ (by decide)]
  have hhigh : Spec.bit0 (highByte v) = decide (v.toNat / 256 % 2 = 1) := by rw [Spec.bit0, highByte_toNat]
  rw [busWrite16, busWrite8_ie, busWrite8_ie, hlow, hhigh, ← nextAddress]
  by_cases hie : Spec.ea addr = 0x5000
  · rw [if_neg (hie ▸ hne), if_pos hie, if_pos hie]
  · rw [if_neg hie, if_neg hie]

/-! ## The interrupt line after the events of a frame -/

/-- `t` is in the phase of `s`, with the enable bit and the vector that the events `is` leave of those of `s` (R164, R165). -/
structure LineAfter (is : List Instr) (s t : State) : Prop where
  phase : t.phase = s.phase
  ie : t.ie = Spec.lastEnable s.ie is
  vec : t.vec = Spec.lastVector s.vec is

theorem lastEnable_cons (b : Bool) (i : Instr) (is : List Instr) :
    Spec.lastEnable b (i :: is) = Spec.lastEnable (Spec.lastEnable b [i]) is := by cases i <;> rfl

theorem lastVector_cons (v : Byte) (i : Instr) (is : List Instr) :
    Spec.lastVector v (i :: is) = Spec.lastVector (Spec.lastVector v [i]) is := by cases i <;> rfl

theorem LineAfter.cons (hi : LineAfter [i] s t) (his : LineAfter is t u) : LineAfter (i :: is) s u where
  phase := his.phase.trans hi.phase
  ie := by rw [his.ie, hi.ie, ← lastEnable_cons]
  vec := by rw [his.vec, hi.vec, ← lastVector_cons]

/-- A key event writes neither the enable bit nor the vector (R119, R120). -/
theorem lineAfter_effectOf_key (h : isKey i = true) (s : State) : LineAfter [i] s (effectOf i s) := by
  cases i with
  | keydn key => rw [effectOf_keydn]; exact ⟨rfl, rfl, rfl⟩
  | keyup key => rw [effectOf_keyup]; exact ⟨rfl, rfl, rfl⟩
  | _ => cases h

/-- WR8 and WR16 write the enable bit, OUT the vector (R104, R114, R116). -/
theorem lineAfter_effectOf_bus (h : txnClass i = .bus) (s : State) : LineAfter [i] s (effectOf i s) := by
  refine ⟨effectOf_bus_phase h s, ?_, ?_⟩
  · cases i with
    | wr8 addr val => exact busWrite8_ie s addr val
    | wr16 addr val => exact busWrite16_ie s addr val
    | out port val => dsimp only [effectOf, portWrite]; split <;> rfl
    | rd8 | rd16 | inp => rfl
    | _ => cases h
  · cases i with
    | wr8 addr val => exact busWrite8_vec s addr val
    | wr16 addr val => exact (busWrite8_vec _ (nextAddress addr) (highByte val)).trans (busWrite8_vec s addr (lowByte val))
    | out port val => exact apply_ite State.vec _ _ _
    | rd8 | rd16 | inp => rfl
    | _ => cases h

theorem inSpan_iff : inSpan i = true ↔ txnClass i = .bus ∨ isKey i = true := by rw [inSpan, isKey, decide_eq_true_iff, decide_eq_true_iff]

theorem lineAfter_effectOf_inSpan (h : inSpan i = true) (s : State) : LineAfter [i] s (effectOf i s) :=
  (inSpan_iff.1 h).elim (lineAfter_effectOf_bus · s) (lineAfter_effectOf_key · s)

/-- Events that the phase admits are performed one after another, since each leaves the phase. -/
theorem exists_performAll_lineAfter (h : ∀ i ∈ is, inSpan i = true ∧ admission i s.phase = none) :
    ∃ t, performAll is s = .next t ∧ LineAfter is s t := by
  induction is generalizing s with
  | nil => exact ⟨s, rfl, rfl, rfl, rfl⟩
  | cons i is ih =>
    obtain ⟨⟨hspan, hadm⟩, his⟩ := List.forall_mem_cons.1 h
    have hfirst := lineAfter_effectOf_inSpan hspan s
    rw [← hfirst.phase] at his
    obtain ⟨t, hperformed, hrest⟩ := ih his
    exact ⟨t, (performAll_cons_next (exec_of_admitted hadm)).trans hperformed, hfirst.cons hrest⟩

/-- The CPU span of a frame, in RUN (R161). -/
theorem exists_performAll_span (h : ∀ i ∈ is, inSpan i = true) (hphase : s.phase = .run) : ∃ t, performAll is s = .next t ∧ LineAfter is s t :=
  exists_performAll_lineAfter fun i hi =>
    ⟨h i hi, (inSpan_iff.1 (h i hi)).elim (admission_bus · hphase) fun hkey => admission_key (of_decide_eq_true hkey) (.inl hphase)⟩

theorem lastEnable_lastVector_of_keys (b : Bool) (v : Byte) (h : ∀ i ∈ is, isKey i = true) :
    Spec.lastEnable b is = b ∧ Spec.lastVector v is = v := by
  induction is with
  | nil => exact ⟨rfl, rfl⟩
  | cons i is ih =>
    obtain ⟨hi, his⟩ := List.forall_mem_cons.1 h
    cases i with
    | keydn | keyup => exact ih his
    | _ => cases hi

/-- The key events between a frame's COMPOSE and its IRQCHK (R161): neither the phase nor the line changes. -/
theorem exists_performAll_keys (h : ∀ i ∈ is, isKey i = true) (hphase : s.phase = .composed) :
    ∃ t, performAll is s = .next t ∧ t.phase = .composed ∧ t.ie = s.ie ∧ t.vec = s.vec := by
  obtain ⟨t, hperformed, hline⟩ := exists_performAll_lineAfter fun i hi =>
    ⟨inSpan_iff.2 (.inr (h i hi)), admission_key (of_decide_eq_true (h i hi)) (.inr hphase)⟩
  obtain ⟨hie, hvec⟩ := lastEnable_lastVector_of_keys s.ie s.vec h
  exact ⟨t, hperformed, hline.phase.trans hphase, hline.ie.trans hie, hline.vec.trans hvec⟩

end Sys2Proof.Machine

namespace Sys2Proof.Proofs

open Sys2Proof.Machine

/-- Settles O36: IRQCHK is the one transaction whose effect is a request, and COMPOSED the one phase that performs it. -/
theorem onlyIrqCheckRequests : Obligations.OnlyIrqCheckRequests := by
  intro i s t v hexec hresp
  obtain ⟨hadm, rfl⟩ := exec_eq_next.1 hexec
  obtain ⟨rfl, hie, hvec⟩ := effectOf_resp_eq_irqRequest hresp
  exact ⟨rfl, admission_irqchk_iff.1 hadm, by rw [effectOf_irqchk], hie, hvec⟩

/-- Settles O37, phase by phase: the span leaves its last enable bit and vector, which COMPOSE and the key events pass on to the IRQCHK. -/
theorem frameRequestsWithTheSpansLastValues : Obligations.FrameRequestsWithTheSpansLastValues := by
  intro s span keys hphase hspan hkeys
  obtain ⟨t, hspanRun, hline⟩ := exists_performAll_span hspan hphase
  have hcompose := exec_compose_of_run (hline.phase.trans hphase)
  obtain ⟨u, hkeysRun, hcomposed, hie, hvec⟩ :=
    exists_performAll_keys (s := { t with fb := composeFrame t, phase := .composed, resp := .nothing }) hkeys rfl
  refine ⟨{ u with phase := .run, resp := if u.ie then .irqRequest u.vec else .nothing }, ?_, rfl, rfl, ?_⟩
  · simp only [List.append_assoc, List.cons_append, List.nil_append]
    rw [performAll_append_next hspanRun, performAll_cons_next hcompose, performAll_append_next hkeysRun,
      performAll_cons_next (exec_irqchk_of_composed hcomposed), performAll]
  · rw [← hline.ie, ← hline.vec, ← hie, ← hvec]

/-- Settles O35: COMPOSED performs IRQCHK, and every other phase refuses it. -/
theorem irqCheckRequestsWhenEnabled : Obligations.IrqCheckRequestsWhenEnabled :=
  ⟨txnWord_eq_spec_word .., fun _ => exec_irqchk_of_composed, fun _ h => exec_eq_refused.2 (admission_irqchk_of_ne_composed h)⟩

end Sys2Proof.Proofs
end

section
/-! The refusals of 60_exceptions.md: which conditions of R144 hold of a word that decodes, that each refusal carries the lowest code that applies
(R149), and that a step refuses no other word. -/

namespace Sys2Proof.Machine

variable {w : TxnWord} {i : Instr} {p : Phase} {s : State} {r : Refusal} {c : Nat}

/-! ## Words that decode -/

theorem spec_op_of_ok (h : decodeWord w = .ok i) : Spec.op w = i.op.code.toNat := by
  obtain ⟨-, rfl⟩ := decodeWord_eq_ok_iff.1 h
  rw [spec_op_eq, opField_encode]

theorem not_reservedFieldSet_of_ok (h : decodeWord w = .ok i) : ¬Spec.reservedFieldSet w := fun hfield => by
  rw [decodeWord_of_reservedFieldSet hfield] at h
  cases h

/-- A word with a row and no must-be-zero field set is a transaction's (R68, R69). -/
theorem exists_decodeWord_eq_ok (hop : ¬(Spec.op w = 0 ∨ 12 ≤ Spec.op w)) (hfield : ¬Spec.reservedFieldSet w) :
    ∃ i, decodeWord w = .ok i := by
  obtain ⟨op, hrow⟩ := Option.ne_none_iff_exists'.1 (mt ofCode_eq_none_iff_op.1 hop)
  have hcode := (ofCode_eq_some _ _).1 hrow
  rw [reservedFieldSet_iff_of_row hcode, ne_eq, not_not] at hfield
  exact ⟨op.assemble w, by rw [decodeWord_of_row hcode, if_pos hfield]⟩

/-- The refusal rows of R144 for a word that decodes: the OPs are the rows of the admission table. -/
theorem refusalApplies_iff_of_ok (h : decodeWord w = .ok i) :
    Spec.refusalApplies w p c ↔
      (c = 18 ∧ p = .inactive) ∨
      (c = 19 ∧ txnClass i = .load ∧ (p = .run ∨ p = .composed)) ∨
      (c = 20 ∧ ((txnClass i = .compose ∧ p ≠ .run) ∨ (txnClass i = .irqCheck ∧ p ≠ .composed))) ∨
      (c = 21 ∧ ((txnClass i = .bus ∧ p ≠ .run) ∨ (txnClass i = .key ∧ p ≠ .run ∧ p ≠ .composed))) := by
  simp only [Spec.refusalApplies, not_reservedFieldSet_of_ok h, spec_op_of_ok h, and_false, false_or]
  cases i <;> simp [Instr.op, Op.code, txnClass]

/-! ## The lowest code that applies -/

/-- `r` records the word `w` and carries the lowest of the codes that apply to it in phase `p` (R144, R149). -/
def IsLowestRefusal (w : TxnWord) (p : Phase) (r : Refusal) : Prop :=
  r.word = some w ∧ ∃ c, r.code = some c ∧ IsLeast {c | Spec.refusalApplies w p c} c

theorem sixteen_le_of_refusalApplies (h : Spec.refusalApplies w p c) : 16 ≤ c := by
  unfold Spec.refusalApplies at h
  omega

theorem isLowestRefusal_reservedOp (h : Spec.op w = 0 ∨ 12 ≤ Spec.op w) : IsLowestRefusal w p (.reservedOp w) :=
  ⟨rfl, 16, rfl, .inl ⟨rfl, h⟩, fun _ => sixteen_le_of_refusalApplies⟩

/-- A word with a must-be-zero field set has a row, so code 16 does not apply to it. -/
theorem isLowestRefusal_nonzeroReservedField (h : Spec.reservedFieldSet w) : IsLowestRefusal w p (.nonzeroReservedField w) := by
  refine ⟨rfl, 17, rfl, .inr (.inl ⟨rfl, h⟩), fun c hc => ?_⟩
  have hop : ¬(Spec.op w = 0 ∨ 12 ≤ Spec.op w) := by
    unfold Spec.reservedFieldSet at h
    omega
  have hne : c ≠ 16 := by
    rintro rfl
    simp [Spec.refusalApplies, hop] at hc
  have := sixteen_le_of_refusalApplies hc
  omega

theorem admission_word (h : admission i p = some r) : r.word = some (encode i) := by
  unfold admission at h
  split at h <;> cases h <;> rfl

theorem admission_code_applies (hok : decodeWord w = .ok i) (h : admission i p = some r) :
    ∃ c, r.code = some c ∧ Spec.refusalApplies w p c := by
  simp only [refusalApplies_iff_of_ok hok]
  unfold admission at h
  split at h <;> cases h <;> exact ⟨_, rfl, by simp [*]⟩

/-- Outside INACTIVE each row of the admission table has one condition of R144 at most, by its class. -/
theorem refusalApplies_unique_of_ok {c' : Nat} (hok : decodeWord w = .ok i) (hp : p ≠ .inactive) (h : Spec.refusalApplies w p c)
    (h' : Spec.refusalApplies w p c') : c = c' := by
  rw [refusalApplies_iff_of_ok hok] at h h'
  cases hclass : txnClass i <;> simp [hclass, hp] at h h' <;> omega

/-- In INACTIVE code 18 is the lowest that can apply to a word that decodes; in the other phases only one code can. -/
theorem isLowestRefusal_of_admission (hok : decodeWord w = .ok i) (h : admission i p = some r) : IsLowestRefusal w p r := by
  refine ⟨by rw [admission_word h, (decodeWord_eq_ok_iff.1 hok).2], ?_⟩
  by_cases hp : p = .inactive
  · subst hp
    rw [admission_inactive] at h
    cases h
    refine ⟨18, rfl, (refusalApplies_iff_of_ok hok).2 (.inl ⟨rfl, rfl⟩), fun c hc => ?_⟩
    have := (refusalApplies_iff_of_ok hok).1 hc
    omega
  · obtain ⟨c, hcode, happlies⟩ := admission_code_applies hok h
    exact ⟨c, hcode, happlies, fun c' h' => (refusalApplies_unique_of_ok hok hp happlies h').le⟩

theorem not_refusalApplies_of_admitted (hok : decodeWord w = .ok i) (h : admission i p = none) : ¬Spec.refusalApplies w p c := by
  rw [refusalApplies_iff_of_ok hok]
  unfold admission at h
  split at h <;> simp_all

/-! ## Steps -/

/-- What a step does with a pending word: the lowest refusal that applies, or a next state where none applies. -/
theorem step_lowestRefusal_or_next {rest : List TxnWord} (hpending : s.pending = w :: rest) :
    (∃ r, step s = .refused r ∧ IsLowestRefusal w s.phase r) ∨
      (∃ t, step s = .next t) ∧ ∀ c, ¬Spec.refusalApplies w s.phase c := by
  by_cases hop : Spec.op w = 0 ∨ 12 ≤ Spec.op w
  · exact .inl ⟨_, step_of_error hpending (decodeWord_of_reservedOp hop), isLowestRefusal_reservedOp hop⟩
  by_cases hfield : Spec.reservedFieldSet w
  · exact .inl ⟨_, step_of_error hpending (decodeWord_of_reservedFieldSet hfield), isLowestRefusal_nonzeroReservedField hfield⟩
  obtain ⟨i, hok⟩ := exists_decodeWord_eq_ok hop hfield
  rw [step_of_ok hpending hok]
  cases hadm : admission i s.phase with
  | some r => exact .inl ⟨r, exec_eq_refused.2 hadm, isLowestRefusal_of_admission hok hadm⟩
  | none => exact .inr ⟨⟨_, exec_of_admitted hadm⟩, fun _ => not_refusalApplies_of_admitted hok hadm⟩

end Sys2Proof.Machine

namespace Sys2Proof.Proofs

open Sys2Proof.Machine

/-- Settles O9: a step answers the lowest refusal that applies, or a next state where none applies. -/
theorem stepReportsTheLowestRefusal : Obligations.StepReportsTheLowestRefusal := by
  intro s w rest hpending
  obtain ⟨r, hstep, hlowest⟩ | ⟨⟨t, hstep⟩, hnone⟩ := step_lowestRefusal_or_next hpending
  · have ⟨_, c, _, happlies, _⟩ := hlowest
    rw [hstep]
    exact ⟨⟨fun _ => ⟨r, rfl⟩, fun _ => ⟨c, happlies⟩⟩, by rintro _ ⟨⟩; exact hlowest⟩
  · rw [hstep]
    exact ⟨⟨fun ⟨c, hc⟩ => absurd hc (hnone c), fun ⟨_, h⟩ => nomatch h⟩, fun _ h => nomatch h⟩

end Sys2Proof.Proofs
end

section
/-! The admission table of R160, cell by cell, and the phase each performed transaction leaves the block in. -/

namespace Sys2Proof.Machine

/-- The model's table has R160's cells: it admits where the cell is empty, and refuses with the cell's code elsewhere. -/
theorem admission_map_code (i : Instr) (p : Phase) : (admission i p).map Refusal.code = (Spec.admissionCode i p).map some := by
  cases p <;> cases i <;> rfl

theorem load_phase (s : State) : s.load.phase = .run ∨ s.load.phase = .inactive := by
  rcases load_cases s with ⟨-, e⟩ | ⟨-, e⟩ <;> rw [e]
  · exact .inl rfl
  · exact .inr rfl

end Sys2Proof.Machine

namespace Sys2Proof.Proofs

open Sys2Proof.Machine

/-- Settles O8: the model's table is R160's, and of the transactions it admits only DECODE, COMPOSE and IRQCHK enter a phase. -/
theorem admissionTableHolds : Obligations.AdmissionTableHolds := by
  intro i s
  have htable := admission_map_code i s.phase
  refine ⟨fun c hc => ?_, fun hnone => ?_⟩
  · rw [hc] at htable
    obtain ⟨r, hadm, hcode⟩ := Option.map_eq_some_iff.1 htable
    exact ⟨r, exec_eq_refused.2 hadm, hcode, admission_word hadm⟩
  · rw [hnone] at htable
    refine ⟨effectOf i s, exec_of_admitted (Option.map_eq_none_iff.1 htable), ?_⟩
    cases i with
    | decode => exact load_phase s
    | compose | irqchk => rfl
    | keydn | keyup => exact (lineAfter_effectOf_key rfl s).phase
    | rd8 | wr8 | rd16 | wr16 | inp | out => exact effectOf_bus_phase rfl s

end Sys2Proof.Proofs
end
